-- ==== Sys2Proof/Word.lean ====
section
/-! DEFINITION. The words of the frame link core: the byte, and byte sequences of a fixed length (00_scope.md R11, R12, R13). -/

namespace Sys2Proof

/-- A byte: an 8-bit unsigned value (R12). Bit 7 is its top bit. -/
abbrev Byte := BitVec 8

/-- A byte sequence of exactly `n` bytes, element 0 at the front (R13). The length is part of the value, so no
`data` field of another size than 16 (R33) and no transport write of another size than 18 (R46) can be built. -/
structure Bytes (n : Nat) where
  list : List Byte
  size : list.length = n
deriving DecidableEq, Repr

/-- FRAME_LEN = 18: the wire form of a frame (R9, R60). -/
abbrev Wire := Bytes 18

/-- DATA_LEN = 16: the data field of a frame (R9, R33). -/
abbrev Data := Bytes 16

end Sys2Proof
end

