-- ==== Sys2Proof/Machine/Checksum.lean ====
section
/-! DEFINITION. The Checksum Unit: CRC-8, polynomial 0x07, initial register 0x00, most significant bit first, no reflection and no final
exclusive-or (40_checksum.md R80). The unit keeps nothing between computations (10_state.md R31). -/

namespace Sys2Proof.Machine

/-- CRC_POLY (R9). The x^8 term is implicit. -/
def crcPoly : Byte := 0x07#8

/-- CRC_INIT (R9). -/
def crcInit : Byte := 0x00#8

/-- One bit position of R81: shift left, and exclude-or the polynomial where the top bit was set. -/
def crcBit (r : Byte) : Byte := if r.msb then (r <<< 1) ^^^ crcPoly else r <<< 1

/-- `k` bit positions of R81. -/
def crcBits : Nat → Byte → Byte
  | 0, r => r
  | k + 1, r => crcBits k (crcBit r)

/-- `crc8_step(r, b)` (R81). -/
def crc8Step (r b : Byte) : Byte := crcBits 8 (r ^^^ b)

/-- `checksum(s)` (R82): from CRC_INIT, `s[0]` first. -/
def checksum (s : List Byte) : Byte := s.foldl crc8Step crcInit

end Sys2Proof.Machine
end

