-- ==== Sys2Proof/Syntax.lean ====
section
/-! DEFINITION. What the block decodes: the command record, the frame, and the instructions (the rows of spec/opcode_table.json). -/

namespace Sys2Proof

/-- A Frame value (10_state.md R33): the declared length, exactly 16 data bytes, and the crc byte. -/
structure Frame where
  length : Byte
  data   : Data
  crc    : Byte
deriving DecidableEq, Repr

/-- A command record at the port (30_encoding.md R67). Its `n` is `bytes.length`. -/
structure Command where
  op     : Byte
  length : Byte
  bytes  : List Byte
deriving DecidableEq, Repr

/-- The two encodings of the block (30_encoding.md, opening): a command record at the port, or a wire frame in the byte stream. -/
inductive Encoded where
  | command (c : Command)
  | frame (b : Wire)
deriving DecidableEq, Repr

/-- The class of a frame (41_frame_codec.md R99): the branch the Link Controller takes for it, the CrcFailed, RetxReceived, AckReceived and
DataAccepted of 43_link_controller.md R123, none of which is stored (10_state.md R30). -/
inductive FrameClass where
  | crcFailed
  | retx
  | ack
  | data
deriving DecidableEq, Repr

/-- One constructor per row of spec/opcode_table.json. The operands a command ignores (30_encoding.md R70) are kept, so that no bit of a
record is lost. The two control frames have no operand: one wire value each (R66, R103). -/
inductive Instr where
  | rxChunk (length : Byte) (bytes : List Byte)
  | sendPayload (length : Byte) (bytes : List Byte)
  | receiveNext (length : Byte) (bytes : List Byte)
  | crc8 (length : Byte) (bytes : List Byte)
  | encode (length : Byte) (bytes : List Byte)
  | decode (length : Byte) (bytes : List Byte)
  | reserved (op : Byte) (length : Byte) (bytes : List Byte)
  | frameRetx
  | frameAck
  | frameCrcFailed (f : Frame)
  | frameData (f : Frame)
deriving DecidableEq, Repr

end Sys2Proof
end

