-- ==== Sys2Proof/Machine/Operands.lean ====
section
/-! DEFINITION. The operand forms: fields of byte sequences, the frame codec (30_encoding.md R60, 41_frame_codec.md R90 to R95), and the
command forms (30_encoding.md R67 to R69). -/

namespace Sys2Proof.Machine

/-- `s[i]` of a sequence of fixed length (00_scope.md R13). -/
def byteAt {n : Nat} (b : Bytes n) (i : Fin n) : Byte := b.list.get (i.cast b.size.symm)

/-- `k` elements of a sequence of fixed length, from element `start` on. -/
def slice {n : Nat} (b : Bytes n) (start k : Nat) (h : start + k ≤ n) : Bytes k :=
  ⟨(b.list.drop start).take k, by rw [List.length_take, List.length_drop, b.size]; omega⟩

/-- The sequence as one of exactly `n` bytes, where it has that length. -/
def exactly (n : Nat) (s : List Byte) : Option (Bytes n) :=
  if h : s.length = n then some ⟨s, h⟩ else none

/-- PAD_BYTE (R9). -/
def padByte : Byte := 0xFF#8

/-- ACK_DATA0 (R9). -/
def ackData0 : Byte := 0x15#8

/-- RETX_DATA0 (R9). -/
def retxData0 : Byte := 0x19#8

/-- CONTROL_LENGTH (R9). -/
def controlLength : Byte := 0x01#8

/-- `pad(p)` (R91). Its precondition is the argument `h`. -/
def pad (p : List Byte) (h : p.length ≤ 16) : Data :=
  ⟨p ++ List.replicate (16 - p.length) padByte, by rw [List.length_append, List.length_replicate]; omega⟩

/-- `frameCrc(length, data)` (R92): the checksum of the 17 bytes before the crc. -/
def frameCrc (length : Byte) (data : Data) : Byte := checksum (length :: data.list)

/-- `serialize(f)` (R95), the layout of R60: offset 0 `length`, offsets 1..16 `data`, offset 17 `crc`. -/
def serialize (f : Frame) : Wire :=
  ⟨f.length :: (f.data.list ++ [f.crc]), by simp [f.data.size]⟩

/-- `decode(b)` (R94): the three fields as they stand; nothing is validated. -/
def decodeWire (b : Wire) : Frame :=
  { length := byteAt b 0, data := slice b 1 16 (by decide), crc := byteAt b 17 }

/-- A frame made locally (R90 (a)): its crc is always computed, never supplied. -/
def makeFrame (length : Byte) (data : Data) : Frame :=
  { length := length, data := data, crc := frameCrc length data }

/-- `encode(length, p)` (R93). `none` is OVERSIZED_PAYLOAD: nothing is built. `length` is not compared with `len(p)` (R61). -/
def encodeFrame (length : Byte) (p : List Byte) : Option Wire :=
  if h : p.length ≤ 16 then some (serialize (makeFrame length (pad p h))) else none

/-- `ACK_FRAME` = `encode(1, [0x15])` (R64). -/
def ackFrame : Wire := serialize (makeFrame controlLength (pad [ackData0] (by decide)))

/-- `RETX_FRAME` = `encode(1, [0x19])` (R64). -/
def retxFrame : Wire := serialize (makeFrame controlLength (pad [retxData0] (by decide)))

/-! The command codes of R68. -/

def opRxChunk : Byte := 0x00#8
def opSendPayload : Byte := 0x01#8
def opReceiveNext : Byte := 0x02#8
def opCrc8 : Byte := 0x03#8
def opEncode : Byte := 0x04#8
def opDecode : Byte := 0x05#8

/-- The greatest defined `op`; every greater one is reserved (R69). -/
def lastOp : Byte := 0x05#8

/-- The reserved and illegal command forms of R69: `op` in 0x06..0xFF, RX_CHUNK with n = 0, DECODE with n other than 18. -/
def reservedForm (op : Byte) (bytes : List Byte) : Bool :=
  decide (lastOp < op) || (op == opRxChunk && bytes.isEmpty) || (op == opDecode && bytes.length != 18)

end Sys2Proof.Machine
end

