-- ==== Sys2Proof/Machine/Flags.lean ====
section
/-! DEFINITION. The conditions computed from a frame. The block stores no flags (10_state.md R29); these are recomputed from content for
every frame (41_frame_codec.md R96 to R99). -/

namespace Sys2Proof.Machine

/-- `crcOk(f)` (R96). -/
def crcOk (f : Frame) : Bool := frameCrc f.length f.data == f.crc

/-- The shape both control frames share (R97, R98): `length` 1, the given first data byte, and `data[1..15]` all 0xFF. The crc is not tested. -/
def controlShape (data0 : Byte) (f : Frame) : Bool :=
  f.length == controlLength && byteAt f.data 0 == data0 && (f.data.list.drop 1).all (fun x => x == padByte)

/-- `isAck(f)` (R97). -/
def isAck (f : Frame) : Bool := controlShape ackData0 f

/-- `isRetx(f)` (R98). -/
def isRetx (f : Frame) : Bool := controlShape retxData0 f

/-- The class of a decoded frame, in R99's order: crc first, then RETX, then ACK, then everything else. -/
def classOf (f : Frame) : FrameClass :=
  if crcOk f then
    if isRetx f then .retx else if isAck f then .ack else .data
  else .crcFailed

/-- `classify(b)` (R99). -/
def classify (b : Wire) : FrameClass := classOf (decodeWire b)

/-- The class codes of R66 (the spec's own numbers, D16). -/
def classCode : FrameClass → Byte
  | .crcFailed => 0#8
  | .retx => 1#8
  | .ack => 2#8
  | .data => 3#8

end Sys2Proof.Machine
end

