-- ==== Sys2Proof/WellFormed.lean ====
section
/-! DEFINITION. Which instructions the block can be given: a command in one of its defined forms (30_encoding.md R68, R69), a reserved form
only where it is reserved, and a frame row only for a frame of its class (R66). -/

namespace Sys2Proof

open Machine

/-- The operand checks of R68 and R69, and the class conditions of R66. SEND_PAYLOAD and ENCODE with n > 16 are defined forms: they respond
OVERSIZED_PAYLOAD (R68). -/
def Instr.wellFormed : Instr → Bool
  | .rxChunk _ bytes => !bytes.isEmpty
  | .sendPayload _ _ => true
  | .receiveNext _ _ => true
  | .crc8 _ _ => true
  | .encode _ _ => true
  | .decode _ bytes => bytes.length == 18
  | .reserved op _ bytes => reservedForm op bytes
  | .frameRetx => true
  | .frameAck => true
  | .frameCrcFailed f => !crcOk f
  | .frameData f => crcOk f && !isRetx f && !isAck f

end Sys2Proof
end

