-- ==== Sys2Proof/Decode.lean ====
section
/-! DEFINITION. The decoder over both encodings of the block (30_encoding.md), total on every record and on every 18 bytes, and the encoder. -/

namespace Sys2Proof

open Machine

/-- The command decoder (R68). A form that R69 reserves decodes to RESERVED. -/
def decodeCommand (c : Command) : Instr :=
  if reservedForm c.op c.bytes then .reserved c.op c.length c.bytes
  else if c.op = opRxChunk then .rxChunk c.length c.bytes
  else if c.op = opSendPayload then .sendPayload c.length c.bytes
  else if c.op = opReceiveNext then .receiveNext c.length c.bytes
  else if c.op = opCrc8 then .crc8 c.length c.bytes
  else if c.op = opEncode then .encode c.length c.bytes
  else .decode c.length c.bytes

/-- The received-frame decoder: the frame's class (R66, R99), with the frame itself where the class does not fix it. -/
def decodeFrame (b : Wire) : Instr :=
  match classify b with
  | .crcFailed => .frameCrcFailed (decodeWire b)
  | .retx => .frameRetx
  | .ack => .frameAck
  | .data => .frameData (decodeWire b)

/-- The decoder of the block. -/
def decode : Encoded → Instr
  | .command c => decodeCommand c
  | .frame b => decodeFrame b

/-- The encoder, from the encoding tables of R60, R64 and R68. -/
def encode : Instr → Encoded
  | .rxChunk length bytes => .command ⟨opRxChunk, length, bytes⟩
  | .sendPayload length bytes => .command ⟨opSendPayload, length, bytes⟩
  | .receiveNext length bytes => .command ⟨opReceiveNext, length, bytes⟩
  | .crc8 length bytes => .command ⟨opCrc8, length, bytes⟩
  | .encode length bytes => .command ⟨opEncode, length, bytes⟩
  | .decode length bytes => .command ⟨opDecode, length, bytes⟩
  | .reserved op length bytes => .command ⟨op, length, bytes⟩
  | .frameRetx => .frame retxFrame
  | .frameAck => .frame ackFrame
  | .frameCrcFailed f => .frame (serialize f)
  | .frameData f => .frame (serialize f)

/-- The `k` lowest bytes of a number, the least significant first. -/
def natBytes : Nat → Nat → List Byte
  | 0, _ => []
  | k + 1, w => BitVec.ofNat 8 w :: natBytes k (w / 256)

theorem natBytes_length (k w : Nat) : (natBytes k w).length = k := by
  induction k generalizing w with
  | zero => rfl
  | succ k ih => simp [natBytes, ih]

/-- The 18 bytes of a 144-bit table word: offset 0 is bits 7..0. -/
def wireOfWord (w : Nat) : Wire := ⟨natBytes 18 w, natBytes_length 18 w⟩

/-- How many operand bytes the shortest defined form of `op` has (R68: RX_CHUNK 1, DECODE 18, none elsewhere). -/
def leastOperandBytes (op : Byte) : Nat :=
  if op = opRxChunk then 1 else if op = opDecode then 18 else 0

/-- The command record of a table word: byte 0 `op`, byte 1 `length`, then `bytes`. Where the word ends before `bytes`, the operand is the
shortest the form allows, of zeros (log 6). -/
def commandOfWord (nbits w : Nat) : Command :=
  let op := BitVec.ofNat 8 w
  { op := op
    length := BitVec.ofNat 8 (w / 256)
    bytes := if nbits ≤ 16 then List.replicate (leastOperandBytes op) 0#8 else natBytes (nbits / 8 - 2) (w / 65536) }

/-- What a table word of `nbits` bits encodes (log 6): 144 bits are a frame (format `frame18`), any other whole number of bytes a command
record; nothing else is a word of the table. -/
def encodedOfWord (nbits w : Nat) : Option Encoded :=
  if nbits = 144 then some (.frame (wireOfWord w))
  else if nbits = 0 ∨ nbits % 8 ≠ 0 then none
  else some (.command (commandOfWord nbits w))

/-- The instruction the decoder reads from a word of spec/opcode_table.json. -/
def decodeTableWord (nbits w : Nat) : Option Instr := (encodedOfWord nbits w).map decode

end Sys2Proof
end

