-- ==== Sys2Proof/Config.lean ====
section
/-! DEFINITION. What one instance of the block fixes for life: the implementation parameters of 00_scope.md R10. -/

namespace Sys2Proof

/-- REASSEMBLY_MODE (R10, 42_reassembler.md R111). -/
inductive ReassemblyMode where
  | drainAll
  | onePerFeed
deriving DecidableEq, Repr

/-- The parameters with a default (R10). In the three bounds `none` is UNBOUNDED (NONE for RETX_LIMIT). They are fixed for the life
of an instance (10_state.md R32); log 1 says why State carries them. -/
structure Params where
  reassemblyMode : ReassemblyMode
  accCapacity    : Option Nat
  pendingDepth   : Option Nat
  retxLimit      : Option Nat
deriving DecidableEq, Repr

/-- The defaults of R10, decided in D5, D7, D8 and D9. -/
def Params.default : Params :=
  { reassemblyMode := .drainAll, accCapacity := none, pendingDepth := none, retxLimit := none }

/-- The domains of R10: ACC_CAPACITY at least 18, PENDING_DEPTH at least 1, RETX_LIMIT at least 1, where they are finite. -/
def Params.inDomain (p : Params) : Bool :=
  p.accCapacity.all (fun n => decide (18 ≤ n)) && p.pendingDepth.all (fun n => decide (1 ≤ n)) && p.retxLimit.all (fun n => decide (1 ≤ n))

/-- LINE_FORMAT: OPEN, without a default, the transport's own (R10, D20). The one constant stands for both ends of a link, which must
agree on it. No rule of the spec reads it and nothing in the model does. Log 15. -/
opaque Config.lineFormat : Nat

end Sys2Proof
end

