-- ==== Sys2Proof/Machine/State.lean ====
section
/-! DEFINITION. The state of the machine as plain data: the block's record `st` (10_state.md R20), its parameters, its outputs, and the
agents' commands waiting at its port. -/

namespace Sys2Proof.Machine

/-- The sticky fault register's values (10_state.md R26). -/
inductive FaultCode where
  | none
  | queueOverflow
  | accOverflow
  | linkError
deriving DecidableEq, Repr

/-- The status of a response (60_exceptions.md R151). -/
inductive Status where
  | ok
  | oversizedPayload
  | reservedCommand
  | blockFaulted
deriving DecidableEq, Repr

/-- What a response carries (30_encoding.md R71). -/
inductive Value where
  | none
  | frame (f : Frame)
  | byte (b : Byte)
  | wire (b : Wire)
  | decoded (f : Frame) (crcOk isAck isRetx : Bool) (cls : FrameClass)
deriving DecidableEq, Repr

/-- The response that completes a command (R71). -/
structure Response where
  status : Status
  value  : Value
deriving DecidableEq, Repr

/-- The agents that issue commands (20_memory.md R51). There may be several consumers (44_payload_queue.md R143). -/
inductive Agent where
  | transport
  | consumer (k : Nat)
  | test
deriving DecidableEq, Repr

/-- A command an agent has issued and that has not completed. -/
structure Request where
  agent   : Agent
  command : Command
deriving DecidableEq, Repr

/-- What takes effect next, between two commands: an agent's first outstanding command, or the reset event (R170). -/
inductive Turn where
  | agent (a : Agent)
  | reset
deriving DecidableEq, Repr

/-- The block's state `st`, exactly the record of R20. -/
structure Block where
  acc       : List Byte
  lastSent  : Wire
  pending   : List Frame
  retxCount : Nat
  fault     : FaultCode
deriving DecidableEq, Repr

/-- The whole machine. `st` is R20's record and `params` R10's parameters. `txLog` is the transmit stream (R27). `response` is what the
last command answered, and is `none` where it is held (R71, R28); `responses` is every response given so far. `requests` holds
each agent's outstanding commands in its issue order, and `schedule` says who moves next (log 2). -/
structure State where
  st        : Block
  params    : Params
  txLog     : List Wire
  response  : Option Response
  responses : List (Agent × Response)
  requests  : List Request
  schedule  : List Turn
deriving DecidableEq, Repr

/-- The reasons a step can stop the machine: there is none. Every error condition of 60_exceptions.md is absorbed, a status response, or the
sticky fault register, and after each the machine goes on (R150, R154), so none of them stops a step (log 4; safe: nothing is left out). -/
inductive Fault
deriving DecidableEq, Repr

/-- The reasons an instruction has no meaning. -/
inductive Refusal where
  /-- Raised by an arm of `exec` whose instruction has no meaning yet; no arm raises it now. Safe: the machine stops. -/
  | notModelled (mnemonic : String)
deriving DecidableEq, Repr

/-- The reset values of the block's state (R20, R170): only `lastSent` is the source's, the others are D14. -/
def Block.reset : Block :=
  { acc := [], lastSent := ackFrame, pending := [], retxCount := 0, fault := .none }

/-- The machine right after its first reset, with the parameters `p`: the block at R170's values, and nothing transmitted, answered or issued
yet (log 12). -/
def State.resetWith (p : Params) : State :=
  { st := Block.reset
    params := p
    txLog := []
    response := none
    responses := []
    requests := []
    schedule := [] }

/-- The machine right after reset, with the default parameters of R10. -/
def State.reset : State := State.resetWith Params.default

end Sys2Proof.Machine
end

