-- ==== Sys2Proof/Machine/Ops.lean ====
section
/-! DEFINITION. The operations every meaning is built from: the writes of `st`, the send primitive (43_link_controller.md R120), the
response port, taking a sticky fault (60_exceptions.md R154), the reset event that is the only way out of one (70_reset_and_hazards.md R170),
and the agents' command port. -/

namespace Sys2Proof.Machine

/-! ### The numbers of the codes -/

/-- The 2-bit codes of the fault register (10_state.md R26). -/
def faultCodeBits : FaultCode → BitVec 2
  | .none => 0#2
  | .queueOverflow => 1#2
  | .accOverflow => 2#2
  | .linkError => 3#2

/-- The status codes of R151. -/
def statusCode : Status → Byte
  | .ok => 0#8
  | .oversizedPayload => 1#8
  | .reservedCommand => 2#8
  | .blockFaulted => 3#8

/-! ### Writes of `st` -/

def State.setAcc (v : List Byte) (s : State) : State := { s with st := { s.st with acc := v } }
def State.setLastSent (v : Wire) (s : State) : State := { s with st := { s.st with lastSent := v } }
def State.setPending (v : List Frame) (s : State) : State := { s with st := { s.st with pending := v } }
def State.setRetxCount (v : Nat) (s : State) : State := { s with st := { s.st with retxCount := v } }
def State.setFault (v : FaultCode) (s : State) : State := { s with st := { s.st with fault := v } }

/-- The position of the next received byte inside its frame (10_state.md R24): derived, not stored. -/
def State.phase (s : State) : Nat := s.st.acc.length % 18

/-! ### Outputs -/

/-- `emit Tx(b)` (00_scope.md R14): one 18-byte write, the only thing that reaches the transport (R46). The transport never fails (log 9). -/
def emit (b : Wire) (s : State) : State := { s with txLog := s.txLog ++ [b] }

/-- The send primitive (R120): the write, and `st.lastSent` is exactly what was written. -/
def send (x : Wire) (s : State) : State := (emit x s).setLastSent x

/-- `respond(status, value)` (R14, R71). -/
def respond (status : Status) (value : Value) (s : State) : State := { s with response := some ⟨status, value⟩ }

/-- A command that completes: the next state holds its response. -/
def complete (status : Status) (value : Value) (s : State) : Host.Outcome State Fault Refusal := .next (respond status value s)

/-- `hold` (R14, R141): the command gives no response and does not complete; its agent waits (log 5). -/
def hold (s : State) : Host.Outcome State Fault Refusal := .next { s with response := none }

/-! ### Taking a fault, and reset -/

/-- `raise Fault(code)` (R154 point 1): the register is written only where it holds NONE, so the first fault wins (R26). That the rest of the
command is abandoned (point 2) stands in the meanings that raise. -/
def raiseFault (code : FaultCode) (s : State) : State :=
  if s.st.fault = .none then s.setFault code else s

/-- The reset event (R170): every element of `st` at its reset value, all at once. It emits nothing, responds to nothing, leaves the
parameters, and leaves every outstanding command with its agent, so a held consumer stays held. -/
def resetEvent (s : State) : State := { s with st := Block.reset }

/-! ### Per-frame actions of the Link Controller -/

/-- `onCrcFailed()` (43_link_controller.md R122). -/
def onCrcFailed (s : State) : State :=
  match s.params.retxLimit with
  | none => send retxFrame s
  | some limit =>
    if s.st.retxCount = limit then raiseFault .linkError s
    else send retxFrame (s.setRetxCount (s.st.retxCount + 1))

/-- `replay()` (R124): `st.lastSent` verbatim; it is not written. -/
def replay (s : State) : State := emit s.st.lastSent s

/-- Whether `st.pending` is full (R126). -/
def pendingFull (s : State) : Bool := s.params.pendingDepth == some s.st.pending.length

/-- `accept(f)` (R126): the whole frame is enqueued at the tail (R140), then `ACK_FRAME` is sent. -/
def accept (f : Frame) (s : State) : State :=
  if pendingFull s then raiseFault .queueOverflow s
  else send ackFrame (s.setPending (s.st.pending ++ [f]))

/-- `processFrame` (R121) of the decoded frame `f`. -/
def processDecoded (f : Frame) (s : State) : State :=
  if crcOk f then
    if isRetx f then replay (s.setRetxCount 0)
    else if isAck f then s.setRetxCount 0
    else accept f (s.setRetxCount 0)
  else onCrcFailed s

/-- `processFrame(b)` (R121). -/
def processFrame (b : Wire) (s : State) : State := processDecoded (decodeWire b) s

/-! ### The command port (20_memory.md R49 to R51) -/

/-- The first outstanding command of an agent, and the outstanding commands without it. -/
def takeRequest (a : Agent) : List Request → Option (Command × List Request)
  | [] => none
  | r :: rs =>
    if r.agent = a then some (r.command, rs)
    else (takeRequest a rs).map (fun p => (p.1, r :: p.2))

/-- An outstanding RECEIVE_NEXT of the agent `a`. -/
def isReceiveOf (a : Agent) (r : Request) : Bool := r.agent == a && r.command.op == opReceiveNext

/-- Whether an agent waits for a RECEIVE_NEXT of its own (00_scope.md R14: the issuing agent waits). -/
def State.waiting (a : Agent) (s : State) : Bool := s.requests.any (isReceiveOf a)

/-- An agent issues a command: it is the last of that agent's outstanding commands. An agent that waits for a RECEIVE_NEXT issues nothing,
so at most one RECEIVE_NEXT is outstanding per agent (44_payload_queue.md R143; log 20). -/
def State.issue (a : Agent) (c : Command) (s : State) : State :=
  if s.waiting a then s else { s with requests := s.requests ++ [⟨a, c⟩] }

/-- The next turn is given to `t`. -/
def State.giveTurn (t : Turn) (s : State) : State := { s with schedule := t :: s.schedule }

/-- What becomes of the agent's command when the block has run it: it is no longer outstanding where it completed, and its response is
recorded; a held one stays outstanding (R141, R28). -/
def settle (a : Agent) (others : List Request) (t : State) : State :=
  match t.response with
  | none => t
  | some r => { t with requests := others, responses := t.responses ++ [(a, r)] }

/-- Whether an agent is held (10_state.md R28): its first outstanding command is RECEIVE_NEXT and nothing is pending. -/
def State.held (a : Agent) (s : State) : Bool :=
  match takeRequest a s.requests with
  | none => false
  | some (c, _) => c.op == opReceiveNext && s.st.pending.isEmpty

end Sys2Proof.Machine
end

