-- ==== Sys2Proof/Machine/LinkController.lean ====
section
/-! DEFINITION. The Link Controller: the four frame classes as it acts on them, and SEND_PAYLOAD (43_link_controller.md). A frame draws no
response of its own: RX_CHUNK, which delivers it, responds. -/

namespace Sys2Proof.Machine

/-- FRAME_CRC_FAILED (R121 step 1, R122): the frame is discarded. -/
def execFrameCrcFailed (_f : Frame) (s : State) : Host.Outcome State Fault Refusal := .next (onCrcFailed s)

/-- FRAME_RETX (R121 step 2, R124). -/
def execFrameRetx (s : State) : Host.Outcome State Fault Refusal := .next (replay (s.setRetxCount 0))

/-- FRAME_ACK (R121 step 3, R125): no effect but R121's reset of the count. -/
def execFrameAck (s : State) : Host.Outcome State Fault Refusal := .next (s.setRetxCount 0)

/-- FRAME_DATA (R121 step 4, R126). -/
def execFrameData (f : Frame) (s : State) : Host.Outcome State Fault Refusal := .next (accept f (s.setRetxCount 0))

/-- SEND_PAYLOAD (R127), in R160's order: faulted block, oversize, processing. -/
def execSendPayload (length : Byte) (bytes : List Byte) (s : State) : Host.Outcome State Fault Refusal :=
  if s.st.fault ≠ .none then complete .blockFaulted .none s
  else
    match encodeFrame length bytes with
    | none => complete .oversizedPayload .none s
    | some b => complete .ok .none (send b s)

end Sys2Proof.Machine
end

