-- ==== Sys2Proof/Machine/PayloadQueue.lean ====
section
/-! DEFINITION. The consumer's blocking receive (44_payload_queue.md). -/

namespace Sys2Proof.Machine

/-- RECEIVE_NEXT (R141): removes and returns the head, or holds. `st.fault` does not matter (R154); both operands are ignored (R70). -/
def execReceiveNext (_length : Byte) (_bytes : List Byte) (s : State) : Host.Outcome State Fault Refusal :=
  match s.st.pending with
  | [] => hold s
  | f :: rest => complete .ok (.frame f) (s.setPending rest)

end Sys2Proof.Machine
end

