-- ==== Sys2Proof/Machine/PureUnits.lean ====
section
/-! DEFINITION. The commands that read and write no state: CRC8 (40_checksum.md), ENCODE and DECODE (41_frame_codec.md), and the reserved
forms (30_encoding.md R69). -/

namespace Sys2Proof.Machine

/-- CRC8 (R84). -/
def execCrc8 (_length : Byte) (bytes : List Byte) (s : State) : Host.Outcome State Fault Refusal :=
  complete .ok (.byte (checksum bytes)) s

/-- ENCODE (R100). -/
def execEncode (length : Byte) (bytes : List Byte) (s : State) : Host.Outcome State Fault Refusal :=
  match encodeFrame length bytes with
  | none => complete .oversizedPayload .none s
  | some b => complete .ok (.wire b) s

/-- DECODE (R101); any length but 18 is refused (R69). -/
def execDecode (_length : Byte) (bytes : List Byte) (s : State) : Host.Outcome State Fault Refusal :=
  match exactly 18 bytes with
  | none => complete .reservedCommand .none s
  | some b =>
    let f := decodeWire b
    complete .ok (.decoded f (crcOk f) (isAck f) (isRetx f) (classify b)) s

/-- RESERVED (R69, R159): refused with a status, whatever `st.fault` is; nothing changes and nothing is emitted. -/
def execReserved (_op : Byte) (_length : Byte) (_bytes : List Byte) (s : State) : Host.Outcome State Fault Refusal :=
  complete .reservedCommand .none s

end Sys2Proof.Machine
end

