-- ==== Sys2Proof/Machine/Reassembler.lean ====
section
/-! DEFINITION. The Receive Reassembler and RX_CHUNK (42_reassembler.md). -/

namespace Sys2Proof.Machine

/-- `drainAll(c)` (R112): byte by byte; a fault ends the command and the rest of the chunk is discarded (R154, D28). -/
def drainAll : List Byte → State → State
  | [], s => s
  | c :: cs, s =>
    let acc := s.st.acc ++ [c]
    match exactly 18 acc with
    | none => drainAll cs (s.setAcc acc)
    | some b =>
      let t := processFrame b (s.setAcc [])
      if t.st.fault = .none then drainAll cs t else t

/-- Whether appending `n` bytes would make `st.acc` exceed ACC_CAPACITY (R117). -/
def accOverflows (n : Nat) (s : State) : Bool :=
  s.params.accCapacity.any (fun capacity => decide (capacity < s.st.acc.length + n))

/-- `onePerFeed(c)` (R113): at most one frame; an overflow appends nothing (R156). -/
def onePerFeed (c : List Byte) (s : State) : State :=
  if accOverflows c.length s then raiseFault .accOverflow s
  else
    let acc := s.st.acc ++ c
    match exactly 18 (acc.take 18) with
    | none => s.setAcc acc
    | some b => processFrame b (s.setAcc (acc.drop 18))

/-- The extraction REASSEMBLY_MODE selects (R111). -/
def feed (c : List Byte) (s : State) : State :=
  match s.params.reassemblyMode with
  | .drainAll => drainAll c s
  | .onePerFeed => onePerFeed c s

/-- RX_CHUNK (R114), in R160's order: reserved form, faulted block, processing. `length` is ignored (R70). -/
def execRxChunk (_length : Byte) (bytes : List Byte) (s : State) : Host.Outcome State Fault Refusal :=
  if bytes.isEmpty then complete .reservedCommand .none s
  else if s.st.fault ≠ .none then complete .blockFaulted .none s
  else
    let t := feed bytes s
    if t.st.fault ≠ .none then complete .blockFaulted .none t else complete .ok .none t

end Sys2Proof.Machine
end

