-- ==== Sys2Proof/Machine/Dispatch.lean ====
section
/-! DEFINITION. One arm per instruction: the meaning each constructor of Instr has. -/

namespace Sys2Proof.Machine

def exec (i : Instr) (s : State) : Host.Outcome State Fault Refusal :=
  match i with
  -- the command port (30_encoding.md R68)
  | .rxChunk length bytes => Sys2Proof.Machine.execRxChunk length bytes s
  | .sendPayload length bytes => Sys2Proof.Machine.execSendPayload length bytes s
  | .receiveNext length bytes => Sys2Proof.Machine.execReceiveNext length bytes s
  | .crc8 length bytes => Sys2Proof.Machine.execCrc8 length bytes s
  | .encode length bytes => Sys2Proof.Machine.execEncode length bytes s
  | .decode length bytes => Sys2Proof.Machine.execDecode length bytes s
  | .reserved op length bytes => Sys2Proof.Machine.execReserved op length bytes s
  -- the received frame (30_encoding.md R66)
  | .frameRetx => Sys2Proof.Machine.execFrameRetx s
  | .frameAck => Sys2Proof.Machine.execFrameAck s
  | .frameCrcFailed f => Sys2Proof.Machine.execFrameCrcFailed f s
  | .frameData f => Sys2Proof.Machine.execFrameData f s

end Sys2Proof.Machine
end

