-- ==== Sys2Proof/Machine/Step.lean ====
section
/-! DEFINITION. One step of the machine: one atomic command of one agent, or the reset event (20_memory.md R49, 70_reset_and_hazards.md R170). -/

namespace Sys2Proof.Machine

/-- The turn of one agent: its first outstanding command is decoded and run. An agent with nothing outstanding does nothing. -/
def agentTurn (a : Agent) (s : State) : Host.Outcome State Fault Refusal :=
  match takeRequest a s.requests with
  | none => .next s
  | some (c, others) =>
    match exec (decodeCommand c) s with
    | .next t => .next (settle a others t)
    | .fault r => .fault r
    | .refused r => .refused r

/-- One step: the next turn of the schedule. With none, nothing is presented to the block and it idles. -/
def step (s : State) : Host.Outcome State Fault Refusal :=
  match s.schedule with
  | [] => .next s
  | .reset :: rest => .next (resetEvent { s with schedule := rest })
  | .agent a :: rest => agentTurn a { s with schedule := rest }

/-- `s` with `c` as the very next command: the test agent's first outstanding one, and the test agent's turn. -/
def State.withCommand (c : Command) (s : State) : State :=
  { s with requests := ⟨.test, c⟩ :: s.requests, schedule := .agent .test :: s.schedule }

/-- `s` with a table word as what the next step runs (log 6, log 8). A command record is presented at the port. A frame is delivered by an
RX_CHUNK of its 18 bytes, which the block takes as one frame only at phase 0 and only when it is not faulted. -/
def State.withFetchWord (s : State) (nbits w : Nat) : State :=
  match encodedOfWord nbits w with
  | none => s
  | some (.command c) => s.withCommand c
  | some (.frame b) => ((s.setAcc []).setFault .none).withCommand ⟨opRxChunk, 0#8, b.list⟩

end Sys2Proof.Machine
end

