-- ==== Sys2Proof/Machine/Network.lean ====
section
/-! DEFINITION. Two blocks and the noisy channel between them (60_exceptions.md R165): what the hazards of 70_reset_and_hazards.md are about.
The ends share nothing but the wire. Log 17 says how the channel is modelled. -/

namespace Sys2Proof.Machine

/-- The two ends of a link, peers of each other. -/
inductive LinkEnd where
  | a
  | b
deriving DecidableEq, Repr

/-- The two blocks, and how many of each end's Tx writes the channel has already taken. -/
structure Link where
  a      : State
  b      : State
  takenA : Nat
  takenB : Nat
deriving DecidableEq, Repr

/-- What can happen next on a link. -/
inductive LinkEvent where
  /-- An agent of an end issues a command; nothing takes effect yet. -/
  | issue (e : LinkEnd) (agent : Agent) (c : Command)
  /-- An agent of an end has a turn: its earliest outstanding command takes effect, a held RECEIVE_NEXT too once a frame is pending. -/
  | turn (e : LinkEnd) (agent : Agent)
  /-- The next turn of an end's own schedule. -/
  | scheduled (e : LinkEnd)
  /-- An agent of an end issues a command and has a turn at once. -/
  | run (e : LinkEnd) (agent : Agent) (c : Command)
  /-- An end is reset; the peer is not told (R172). -/
  | reset (e : LinkEnd)
  /-- The channel delivers the next write of an end to its peer, unchanged, as one chunk. -/
  | wire (e : LinkEnd)
  /-- The channel takes the next `n` writes of an end and delivers these bytes in their place: corruption, loss (no bytes) or insertion. -/
  | noise (e : LinkEnd) (n : Nat) (bytes : List Byte)
deriving DecidableEq, Repr

def LinkEnd.peer : LinkEnd → LinkEnd
  | .a => .b
  | .b => .a

/-- The block at an end. -/
def Link.block (l : Link) : LinkEnd → State
  | .a => l.a
  | .b => l.b

def Link.setBlock (l : Link) : LinkEnd → State → Link
  | .a, s => { l with a := s }
  | .b, s => { l with b := s }

/-- An end's writes that the channel has not taken yet, the oldest first. -/
def Link.onWire (l : Link) : LinkEnd → List Wire
  | .a => l.a.txLog.drop l.takenA
  | .b => l.b.txLog.drop l.takenB

/-- The channel takes the next `n` writes of an end. -/
def Link.takeWrites (l : Link) (n : Nat) : LinkEnd → Link
  | .a => { l with takenA := l.takenA + n }
  | .b => { l with takenB := l.takenB + n }

/-- One step of the block at `e`, from the state `s` of it. -/
def Link.advance (l : Link) (e : LinkEnd) (s : State) : Host.Outcome Link Fault Refusal :=
  match step s with
  | .next t => .next (l.setBlock e t)
  | .fault r => .fault r
  | .refused r => .refused r

/-- An agent at `e` issues `c`. -/
def Link.issue (l : Link) (e : LinkEnd) (agent : Agent) (c : Command) : Link := l.setBlock e ((l.block e).issue agent c)

/-- An agent at `e` has the next turn. -/
def Link.turn (l : Link) (e : LinkEnd) (agent : Agent) : Host.Outcome Link Fault Refusal :=
  l.advance e ((l.block e).giveTurn (.agent agent))

/-- Whether the transport-inbound agent at `e` can take bytes from the channel: it does not wait for a RECEIVE_NEXT of its own (log 20). -/
def Link.receptive (l : Link) (e : LinkEnd) : Bool := !(l.block e).waiting .transport

/-- The channel delivers bytes to `e`: an RX_CHUNK of its transport-inbound agent (R114); no bytes are no event. -/
def Link.deliver (l : Link) (e : LinkEnd) (bytes : List Byte) : Host.Outcome Link Fault Refusal :=
  if bytes.isEmpty then .next l else (l.issue e .transport ⟨opRxChunk, 0#8, bytes⟩).turn e .transport

/-- One event of the link. A delivery to an end that cannot take bytes does not happen: the writes stay on the wire. -/
def Link.step (l : Link) : LinkEvent → Host.Outcome Link Fault Refusal
  | .issue e agent c => .next (l.issue e agent c)
  | .turn e agent => l.turn e agent
  | .scheduled e => l.advance e (l.block e)
  | .run e agent c => (l.issue e agent c).turn e agent
  | .reset e => l.advance e ((l.block e).giveTurn .reset)
  | .wire e =>
    match l.onWire e with
    | [] => .next l
    | w :: _ => if l.receptive e.peer then (l.takeWrites 1 e).deliver e.peer w.list else .next l
  | .noise e n bytes =>
    if bytes.isEmpty || l.receptive e.peer then (l.takeWrites (min n (l.onWire e).length) e).deliver e.peer bytes else .next l

/-- A sequence of events, stopping at the first that does not answer a next link. -/
def Link.run (l : Link) : List LinkEvent → Host.Outcome Link Fault Refusal
  | [] => .next l
  | ev :: evs =>
    match l.step ev with
    | .next l' => l'.run evs
    | .fault r => .fault r
    | .refused r => .refused r

end Sys2Proof.Machine
end

