-- ==== Sys2Proof/Safety.lean ====
section
/-! DEFINITION. What a good state is, and the terms the statements use: the invariant of the machine, the inbound stream cut into frames, an
error of one byte, and the two-block configurations of the protocol hazards. -/

namespace Sys2Proof.Machine

/-- A good state: the fault register holds NONE. A state with a fault is never a good final state (60_exceptions.md R162). -/
def State.good (s : State) : Bool := s.st.fault == .none

/-- A frame the Link Controller may hand to the consumer: crc valid, and no control frame (44_payload_queue.md R140). -/
def isAccepted (f : Frame) : Bool := crcOk f && !isRetx f && !isAck f

/-- What holds of the machine between any two steps. -/
structure State.Inv (s : State) : Prop where
  /-- The parameters lie in R10's domains. -/
  params : s.params.inDomain = true
  /-- DRAIN_ALL leaves at most 17 bytes (10_state.md R21). -/
  accDrainAll : s.params.reassemblyMode = .drainAll → s.st.acc.length ≤ 17
  /-- ONE_PER_FEED leaves at most ACC_CAPACITY bytes (R21). -/
  accOnePerFeed : ∀ n, s.params.reassemblyMode = .onePerFeed → s.params.accCapacity = some n → s.st.acc.length ≤ n
  /-- The queue is at most PENDING_DEPTH long (R23). -/
  depth : ∀ d, s.params.pendingDepth = some d → s.st.pending.length ≤ d
  /-- The count stays 0 where there is no limit, and never exceeds it where there is one (R25). -/
  countUnlimited : s.params.retxLimit = none → s.st.retxCount = 0
  countLimited : ∀ m, s.params.retxLimit = some m → s.st.retxCount ≤ m
  /-- No corrupted frame and no control frame is ever queued (R140, 60_exceptions.md R167). -/
  pendingAccepted : ∀ f ∈ s.st.pending, isAccepted f = true
  /-- The replay slot and every write hold a frame with a valid crc (R22, 20_memory.md R46). -/
  lastSentValid : crcOk (decodeWire s.st.lastSent) = true
  txValid : ∀ w ∈ s.txLog, crcOk (decodeWire w) = true
  /-- A fault is only ever one that the parameters allow (R26). -/
  queueFault : s.st.fault = .queueOverflow → s.params.pendingDepth ≠ none
  accFault : s.st.fault = .accOverflow → s.params.reassemblyMode = .onePerFeed ∧ s.params.accCapacity ≠ none
  linkFault : s.st.fault = .linkError → s.params.retxLimit ≠ none
  /-- A RECEIVE_NEXT is its agent's last outstanding command, so no agent has two (44_payload_queue.md R143, log 20). -/
  oneReceive : s.requests.Pairwise (fun r later => r.command.op = opReceiveNext → later.agent ≠ r.agent)

/-! ### The inbound stream -/

/-- The frames of a byte stream: byte `k` is offset `k mod 18` of frame `k div 18` (20_memory.md R44). -/
def streamFrames (s : List Byte) : List Wire :=
  (List.range (s.length / 18)).filterMap (fun k => exactly 18 ((s.drop (18 * k)).take 18))

/-- The bytes after the last whole frame. -/
def streamRest (s : List Byte) : List Byte := s.drop (18 * (s.length / 18))

/-- Run the frames' own rows of the opcode table one after another, in order, up to the first that leaves a fault. -/
def runFrames : List Wire → State → State
  | [], s => s
  | b :: bs, s =>
    match exec (decodeFrame b) s with
    | .next t => if t.st.fault = .none then runFrames bs t else t
    | .fault _ => s
    | .refused _ => s

/-! ### Errors on the wire -/

/-- The frame with the error pattern `e` exclusive-ored into the byte at offset `i`. -/
def withError (b : Wire) (i : Fin 18) (e : Byte) : Wire :=
  ⟨b.list.set i (byteAt b i ^^^ e), by rw [List.length_set, b.size]⟩

/-- R81's bit position and byte step on numbers: double modulo 256, and exclusive-or 7 where the number was 128 or more. -/
def bitStep (r : Nat) : Nat := if 128 ≤ r then (2 * r % 256) ^^^ 7 else 2 * r % 256

/-! ### Links -/

/-- An end of a link with nothing going on at its port: parameters in R10's domains, not faulted, at a frame boundary, no command
outstanding, no turn given. -/
structure State.Quiet (s : State) : Prop where
  params : s.params.inDomain = true
  fault : s.st.fault = .none
  acc : s.st.acc = []
  requests : s.requests = []
  schedule : s.schedule = []

/-- What holds of a link between any two events: each end's own invariant, and the channel has taken no write that was not made. -/
structure Link.Inv (l : Link) : Prop where
  invA : l.a.Inv
  invB : l.b.Inv
  takenA : l.takenA ≤ l.a.txLog.length
  takenB : l.takenB ≤ l.b.txLog.length

/-- Two quiet ends, and nothing on the wire. -/
structure Link.Idle (l : Link) : Prop where
  quietA : l.a.Quiet
  quietB : l.b.Quiet
  wireA : l.takenA = l.a.txLog.length
  wireB : l.takenB = l.b.txLog.length

/-- The livelock of 70_reset_and_hazards.md R178: both replay slots hold RETX_FRAME, one RETX_FRAME of end A is on the wire, none of B. -/
structure Link.PingPong (l : Link) : Prop where
  quietA : l.a.Quiet
  quietB : l.b.Quiet
  lastA : l.a.st.lastSent = retxFrame
  lastB : l.b.st.lastSent = retxFrame
  wireA : l.onWire .a = [retxFrame]
  wireB : l.takenB = l.b.txLog.length

/-- `n` lossless rounds: A's next write reaches B, then B's next write reaches A. -/
def rounds : Nat → List LinkEvent
  | 0 => []
  | n + 1 => .wire .a :: .wire .b :: rounds n

end Sys2Proof.Machine
end

