-- ==== Sys2Proof/Certificates/Slice0/Obligations.lean ====
section
/-! DEFINITION. The statements for the provers, from the spec's numbered rules. Each says the instruction's own next state in full, so that
what is not named in it is unchanged. -/

open Sys2Proof Sys2Proof.Machine

/-! ### Reset, and the machine as a whole -/

/-- 70_reset_and_hazards.md R170, as the step that takes a reset turn: all five elements of `st` at once (only `lastSent` is the source's, the
others are the spec's own choice D14), and a held agent stays held. That the turn is used up and every other field of State is unchanged is the
model's reading: log 14, with log 2. -/
def Obligations.ResetSetsEveryElement : Prop :=
  ∀ (s : State) (rest : List Turn), s.schedule = .reset :: rest →
    (∃ t, step s = .next t ∧
      t.st.acc = [] ∧ t.st.lastSent.list = [0x01#8, 0x15#8] ++ List.replicate 15 0xFF#8 ++ [0x27#8] ∧ t.st.pending = [] ∧
      t.st.retxCount = 0 ∧ t.st.fault = .none ∧ t = { s with st := t.st, schedule := rest } ∧
      ∀ a, s.held a = true → t.held a = true) ∧
    State.reset.st.acc = [] ∧ State.reset.st.lastSent.list = [0x01#8, 0x15#8] ++ List.replicate 15 0xFF#8 ++ [0x27#8] ∧
    State.reset.st.pending = [] ∧ State.reset.st.retxCount = 0 ∧ State.reset.st.fault = .none

/-- The invariant holds of the machine right after reset, with the default parameters and with any others in R10's domains. The clauses on the
transmit stream and on the outstanding commands rest on both being empty there, which is the model's choice: log 12. -/
def Obligations.InvariantHoldsAtReset : Prop :=
  State.reset.Inv ∧ ∀ p : Params, p.inDomain = true → (State.resetWith p).Inv

/-- Every step keeps the invariant, from every state that has it (10_state.md R21, R23, R25, R26; 44_payload_queue.md R140;
for the outstanding commands R143, log 20). -/
def Obligations.EveryStepKeepsInvariant : Prop :=
  ∀ s t : State, s.Inv → step s = .next t → t.Inv

/-- Every command and every frame answers a next state, and so does every step: no error condition stops the block (60_exceptions.md R150,
R154, R162; that a faulted block is a next state and no stop is log 4). -/
def Obligations.NothingStopsTheBlock : Prop :=
  (∀ (i : Instr) (s : State), ∃ t, exec i s = .next t) ∧ ∀ s : State, ∃ t, step s = .next t

/-- No step changes the parameters (10_state.md R32; that State carries them is log 1). -/
def Obligations.StepsNeverChangeParams : Prop :=
  ∀ s t : State, step s = .next t → t.params = s.params

/-- No step takes back or changes a write already made, or a response already given (10_state.md R27, 60_exceptions.md R154 point 4). -/
def Obligations.OutputsOnlyGrow : Prop :=
  ∀ s t : State, step s = .next t → s.txLog <+: t.txLog ∧ s.responses <+: t.responses

/-- 10_state.md R22: after anything the block does, `st.lastSent` is the most recent write it made, or both are as they were. Its value
after reset, and that replay leaves it. -/
def Obligations.LastSentIsTheMostRecentWrite : Prop :=
  (∀ (i : Instr) (s t : State), exec i s = .next t →
    (t.txLog = s.txLog ∧ t.st.lastSent = s.st.lastSent) ∨
    (s.txLog.length < t.txLog.length ∧ t.txLog.getLast? = some t.st.lastSent)) ∧
  (∀ s : State, exec .frameRetx s =
    .next { s with st := { s.st with retxCount := 0 }, txLog := s.txLog ++ [s.st.lastSent] }) ∧
  State.reset.st.lastSent.list = [0x01#8, 0x15#8] ++ List.replicate 15 0xFF#8 ++ [0x27#8]

/-- A turn that finds its agent's command runs exactly that command, decoded; a completed command is no longer outstanding and its response
is recorded with its agent, a held one stays (20_memory.md R49, 10_state.md R28). The bookkeeping fields are the model's, log 2 and log 3. -/
def Obligations.StepRunsTheDecodedCommand : Prop :=
  ∀ (s : State) (a : Agent) (rest : List Turn) (c : Command) (others : List Request),
    s.schedule = .agent a :: rest → takeRequest a s.requests = some (c, others) →
    ∃ t, exec (decode (.command c)) { s with schedule := rest } = .next t ∧
      (t.response = none → step s = .next t) ∧
      (∀ r, t.response = some r → step s = .next { t with requests := others, responses := t.responses ++ [(a, r)] })

/-- Without a turn, or with a turn of an agent that has nothing outstanding, the block does nothing (60_exceptions.md R161; log 2). -/
def Obligations.NoCommandNoEffect : Prop :=
  (∀ s : State, s.schedule = [] → step s = .next s) ∧
  ∀ (s : State) (a : Agent) (rest : List Turn), s.schedule = .agent a :: rest → (∀ r ∈ s.requests, r.agent ≠ a) →
    step s = .next { s with schedule := rest }

/-- Each agent's commands take effect in its own issue order (20_memory.md R51): a turn takes the agent's earliest outstanding command and
leaves all the others in their order. -/
def Obligations.AgentsKeepTheirIssueOrder : Prop :=
  ∀ (a : Agent) (rs others : List Request) (c : Command),
    takeRequest a rs = some (c, others) ↔
    ∃ before after, rs = before ++ ⟨a, c⟩ :: after ∧ (∀ r ∈ before, r.agent ≠ a) ∧ others = before ++ after

/-! ### Encodings -/

/-- Decoding an encoded well-formed instruction gives it back, every operand at every value (30_encoding.md R60, R66, R68). -/
def Obligations.DecodeEncodeIsIdentity : Prop :=
  ∀ i : Instr, i.wellFormed = true → decode (encode i) = i

/-- Every record and every 18 bytes decode to one well-formed instruction, and no two to the same: encoding gives the word back. -/
def Obligations.EncodeDecodeIsIdentity : Prop :=
  ∀ w : Encoded, (decode w).wellFormed = true ∧ encode (decode w) = w

/-- A few words written out from 30_encoding.md R64 and R68, one of each family. -/
def Obligations.WrittenWordsDecode : Prop :=
  decode (.command ⟨0x00#8, 0x07#8, [0xAA#8]⟩) = .rxChunk 0x07#8 [0xAA#8] ∧
  decode (.command ⟨0x01#8, 0x03#8, [0x01#8, 0x02#8, 0x03#8]⟩) = .sendPayload 0x03#8 [0x01#8, 0x02#8, 0x03#8] ∧
  decode (.command ⟨0x02#8, 0x00#8, []⟩) = .receiveNext 0x00#8 [] ∧
  decode (.command ⟨0x03#8, 0x00#8, []⟩) = .crc8 0x00#8 [] ∧
  decode (.command ⟨0x06#8, 0x00#8, []⟩) = .reserved 0x06#8 0x00#8 [] ∧
  decode (.frame ⟨[0x01#8, 0x19#8] ++ List.replicate 15 0xFF#8 ++ [0x3F#8], rfl⟩) = .frameRetx ∧
  decode (.frame ⟨[0x01#8, 0x15#8] ++ List.replicate 15 0xFF#8 ++ [0x27#8], rfl⟩) = .frameAck

/-- 30_encoding.md R69: the reserved forms are exactly these three kinds, and each responds RESERVED_COMMAND, changes no state and emits
nothing, whatever `st.fault` is (60_exceptions.md R159; the spec's own choice D3). -/
def Obligations.ReservedFormsAreRefused : Prop :=
  ∀ (c : Command) (s : State),
    (0x06 ≤ c.op.toNat ∨ (c.op = 0x00#8 ∧ c.bytes.length = 0) ∨ (c.op = 0x05#8 ∧ c.bytes.length ≠ 18) ↔
      decode (.command c) = .reserved c.op c.length c.bytes) ∧
    exec (.reserved c.op c.length c.bytes) s = .next { s with response := some ⟨.reservedCommand, .none⟩ }

/-- 30_encoding.md R66 with 41_frame_codec.md R99: any 18 bytes fall into exactly one class, by these conditions on the bytes, tested in this
order; the decoder gives that class's row. That the control classes are single values is the spec's own inference from R96 to R99, the class
codes are its own choice D16. -/
def Obligations.FramesFallIntoFourClasses : Prop :=
  ∀ b : Wire,
    (checksum (b.list.take 17) ≠ byteAt b 17 → decode (.frame b) = .frameCrcFailed (decodeWire b) ∧ classCode (classify b) = 0#8) ∧
    (checksum (b.list.take 17) = byteAt b 17 →
      (b = retxFrame → decode (.frame b) = .frameRetx ∧ classCode (classify b) = 1#8) ∧
      (b = ackFrame → decode (.frame b) = .frameAck ∧ classCode (classify b) = 2#8) ∧
      (b ≠ retxFrame → b ≠ ackFrame → decode (.frame b) = .frameData (decodeWire b) ∧ classCode (classify b) = 3#8))

/-- 41_frame_codec.md R103: the recognizers and a valid crc leave one value each. -/
def Obligations.ControlFramesAreExact : Prop :=
  ∀ b : Wire, (classify b = .ack ↔ b = ackFrame) ∧ (classify b = .retx ↔ b = retxFrame)

/-- 30_encoding.md R70: operands a command does not use have no effect on state, on emission or on the response (the spec's own choice D26). -/
def Obligations.UnusedOperandsAreIgnored : Prop :=
  ∀ (l l' : Byte) (bytes bytes' : List Byte) (s : State),
    exec (.rxChunk l bytes) s = exec (.rxChunk l' bytes) s ∧
    exec (.receiveNext l bytes) s = exec (.receiveNext l' bytes') s ∧
    exec (.crc8 l bytes) s = exec (.crc8 l' bytes) s ∧
    exec (.decode l bytes) s = exec (.decode l' bytes) s

/-! ### Checksum Unit -/

/-- 40_checksum.md R81 and R82 on numbers: the register starts at 0, each byte in turn is exclusive-ored into it, and 8 bit positions
follow, each doubling it modulo 256 and exclusive-oring 7 where its top bit was set. -/
def Obligations.ChecksumFollowsTheBitProcedure : Prop :=
  (∀ r b : Byte, (crc8Step r b).toNat = bitStep^[8] (r.toNat ^^^ b.toNat)) ∧
  checksum [] = 0x00#8 ∧
  ∀ (s : List Byte) (b : Byte), checksum (s ++ [b]) = crc8Step (checksum s) b

/-- 40_checksum.md R83 item 1 (the spec's own inference). -/
def Obligations.ChecksumIsLinear : Prop :=
  ∀ s t : List Byte, s.length = t.length →
    checksum (List.zipWith (fun x y => x ^^^ y) s t) = checksum s ^^^ checksum t

/-- 40_checksum.md R83 item 2: every error confined to one byte of a frame with a valid crc, at any of its 18 offsets, is detected: the block
decodes the corrupted frame to FRAME_CRC_FAILED. -/
def Obligations.EverySingleByteErrorIsDetected : Prop :=
  ∀ (b : Wire) (i : Fin 18) (e : Byte), crcOk (decodeWire b) = true → e ≠ 0#8 →
    decode (.frame (withError b i e)) = .frameCrcFailed (decodeWire (withError b i e))

/-- 40_checksum.md R83 item 3 and 70_reset_and_hazards.md R184: an error in two bytes can escape, and turn one data frame into another. -/
def Obligations.TwoByteErrorsCanEscape : Prop :=
  ∃ (b : Wire) (i j : Fin 18) (e e' : Byte), i ≠ j ∧ e ≠ 0#8 ∧ e' ≠ 0#8 ∧
    classify b = .data ∧ classify (withError (withError b i e) j e') = .data ∧ withError (withError b i e) j e' ≠ b

/-- CRC8 (40_checksum.md R84) responds OK with the checksum of its bytes, from any state, and changes nothing else. -/
def Obligations.Crc8Responds : Prop :=
  ∀ (length : Byte) (bytes : List Byte) (s : State),
    exec (.crc8 length bytes) s = .next { s with response := some ⟨.ok, .byte (checksum bytes)⟩ }

/-! ### Frame Codec -/

/-- The layout of 30_encoding.md R60, and 41_frame_codec.md R94 and R95. That `serialize` and `decode` are inverse, both ways, is the spec's own
inference. -/
def Obligations.WireLayoutAndItsInverse : Prop :=
  (∀ f : Frame, (serialize f).list = [f.length] ++ f.data.list ++ [f.crc] ∧ decodeWire (serialize f) = f) ∧
  ∀ b : Wire, serialize (decodeWire b) = b ∧ (decodeWire b).length = byteAt b 0 ∧
    (decodeWire b).data.list = (b.list.drop 1).take 16 ∧ (decodeWire b).crc = byteAt b 17

/-- `encode` (41_frame_codec.md R93, with `pad` of R91 and `frameCrc` of R92): the length as given and unchecked, the payload padded with 0xFF, and
the checksum of these 17 bytes; a longer payload builds nothing. `encode(1, [0x15])` and `encode(1, [0x19])` are the control frames. -/
def Obligations.EncodePadsAndChecks : Prop :=
  (∀ (length : Byte) (p : List Byte),
    (∀ h : p.length ≤ 16, (pad p h).list = p ++ List.replicate (16 - p.length) 0xFF#8 ∧
      frameCrc length (pad p h) = checksum ([length] ++ (pad p h).list) ∧
      ∃ b, encodeFrame length p = some b ∧ b.list = [length] ++ (pad p h).list ++ [frameCrc length (pad p h)]) ∧
    (16 < p.length → encodeFrame length p = none)) ∧
  encodeFrame 0x01#8 [0x15#8] = some ackFrame ∧ encodeFrame 0x01#8 [0x19#8] = some retxFrame

/-- 41_frame_codec.md R102: round trip and padding, for every payload of at most 16 bytes and every length byte. -/
def Obligations.RoundTripAndPadding : Prop :=
  ∀ (length : Byte) (p : List Byte), p.length ≤ 16 →
    ∃ b, encodeFrame length p = some b ∧ (decodeWire b).length = length ∧ (decodeWire b).data.list.take p.length = p ∧
      crcOk (decodeWire b) = true ∧ (∀ x ∈ (decodeWire b).data.list.drop p.length, x = 0xFF#8) ∧
      (decodeWire b).data.list.length = 16

/-- 41_frame_codec.md R97 and R98: the recognizers test the length and the 16 data bytes and nothing else; that they are never both true is
the spec's own inference. -/
def Obligations.RecognizersTestLengthAndData : Prop :=
  ∀ f : Frame,
    (isAck f = true ↔ f.length = 0x01#8 ∧ f.data.list = 0x15#8 :: List.replicate 15 0xFF#8) ∧
    (isRetx f = true ↔ f.length = 0x01#8 ∧ f.data.list = 0x19#8 :: List.replicate 15 0xFF#8) ∧
    ¬(isAck f = true ∧ isRetx f = true)

/-- ENCODE (41_frame_codec.md R100 with R91 to R93, 60_exceptions.md R153): at most 16 bytes give the frame of `length`, the payload padded
with 0xFF, and the checksum of these 17 bytes; more give OVERSIZED_PAYLOAD. Nothing else changes, from any state. -/
def Obligations.EncodeResponds : Prop :=
  ∀ (length : Byte) (p : List Byte) (s : State),
    (p.length ≤ 16 → ∃ b : Wire,
      b.list = [length] ++ p ++ List.replicate (16 - p.length) 0xFF#8 ++
        [checksum ([length] ++ p ++ List.replicate (16 - p.length) 0xFF#8)] ∧
      exec (.encode length p) s = .next { s with response := some ⟨.ok, .wire b⟩ }) ∧
    (16 < p.length → exec (.encode length p) s = .next { s with response := some ⟨.oversizedPayload, .none⟩ })

/-- DECODE (41_frame_codec.md R101): 18 bytes give the three fields as they stand, the crc check and the two recognizers (which ignore the
crc), and the class (which does not). Any other number of bytes is refused (30_encoding.md R69). Nothing else changes, from any state. -/
def Obligations.DecodeResponds : Prop :=
  ∀ (length : Byte) (bytes : List Byte) (s : State),
    (∀ h : bytes.length = 18, ∃ f : Frame,
      [f.length] ++ f.data.list ++ [f.crc] = bytes ∧
      exec (.decode length bytes) s = .next { s with
        response := some ⟨.ok, .decoded f (checksum (bytes.take 17) == f.crc) (isAck f) (isRetx f) (classify ⟨bytes, h⟩)⟩ }) ∧
    (bytes.length ≠ 18 → exec (.decode length bytes) s = .next { s with response := some ⟨.reservedCommand, .none⟩ })

/-- 20_memory.md R48: CRC8, ENCODE and DECODE read no state and write no state: their response is the same from any two states. -/
def Obligations.PureCommandsReadNoState : Prop :=
  ∀ (length : Byte) (bytes : List Byte) (i : Instr),
    i = .crc8 length bytes ∨ i = .encode length bytes ∨ i = .decode length bytes →
    ∃ r, ∀ s : State, exec i s = .next { s with response := some r }

/-! ### Receive Reassembler -/

/-- RX_CHUNK in DRAIN_ALL mode (42_reassembler.md R112, R114): append the chunk, then run every complete frame's own row, in arrival order, each
found by its position in the stream (20_memory.md R44). Without a fault the bytes after the last whole frame remain and the response is OK;
a fault ends the command there, discards the rest of the chunk, and the response is BLOCK_FAULTED (60_exceptions.md R154, D28). -/
def Obligations.RxChunkDrainsEveryFrame : Prop :=
  ∀ (length : Byte) (c : List Byte) (s t : State), c ≠ [] → s.st.fault = .none → s.params.reassemblyMode = .drainAll →
    s.st.acc.length ≤ 17 →
    t = runFrames (streamFrames (s.st.acc ++ c)) { s with st := { s.st with acc := [] } } →
    (t.st.fault = .none → exec (.rxChunk length c) s =
      .next { t with st := { t.st with acc := streamRest (s.st.acc ++ c) }, response := some ⟨.ok, .none⟩ }) ∧
    (t.st.fault ≠ .none → exec (.rxChunk length c) s = .next { t with response := some ⟨.blockFaulted, .none⟩ })

/-- RX_CHUNK in ONE_PER_FEED mode (42_reassembler.md R113, R114, R117): a chunk that would exceed ACC_CAPACITY raises ACC_OVERFLOW and nothing is
appended; otherwise it is appended, and at most the first 18 bytes are taken off and run as a frame. -/
def Obligations.RxChunkOnePerFeed : Prop :=
  ∀ (length : Byte) (c : List Byte) (s : State), c ≠ [] → s.st.fault = .none → s.params.reassemblyMode = .onePerFeed →
    (∀ n, s.params.accCapacity = some n → n < s.st.acc.length + c.length →
      exec (.rxChunk length c) s =
        .next { s with st := { s.st with fault := .accOverflow }, response := some ⟨.blockFaulted, .none⟩ }) ∧
    ((∀ n, s.params.accCapacity = some n → s.st.acc.length + c.length ≤ n) →
      (s.st.acc.length + c.length < 18 → exec (.rxChunk length c) s =
        .next { s with st := { s.st with acc := s.st.acc ++ c }, response := some ⟨.ok, .none⟩ }) ∧
      (18 ≤ s.st.acc.length + c.length → ∃ (b : Wire) (t : State), b.list = (s.st.acc ++ c).take 18 ∧
        exec (decode (.frame b)) { s with st := { s.st with acc := (s.st.acc ++ c).drop 18 } } = .next t ∧
        exec (.rxChunk length c) s = .next { t with
          response := some ⟨if t.st.fault = .none then .ok else .blockFaulted, .none⟩ }))

/-- 42_reassembler.md R115 (the spec's own inference from R112): in DRAIN_ALL mode it does not matter how a stream is cut into chunks, as long as
no fault arises: two chunks one after the other leave the very state their concatenation leaves. -/
def Obligations.ChunkingDoesNotMatter : Prop :=
  ∀ (length : Byte) (c d : List Byte) (s t : State), c ≠ [] → d ≠ [] → s.params.reassemblyMode = .drainAll →
    exec (.rxChunk length c) s = .next t → t.st.fault = .none →
    exec (.rxChunk length (c ++ d)) s = exec (.rxChunk length d) t

/-- 42_reassembler.md R111 (the spec's own inference): a transport that delivers one byte per RX_CHUNK cannot tell the modes apart, from any
phase, where ACC_CAPACITY is in its domain. -/
def Obligations.ByteSerialDeliveryHidesTheMode : Prop :=
  ∀ (length x : Byte) (s t : State), s.st.acc.length ≤ 17 → s.params.inDomain = true → s.params.reassemblyMode = .drainAll →
    exec (.rxChunk length [x]) s = .next t →
    exec (.rxChunk length [x]) { s with params := { s.params with reassemblyMode := .onePerFeed } } =
      .next { t with params := { t.params with reassemblyMode := .onePerFeed } }

/-- An RX_CHUNK that completes no frame writes only `st.acc` and emits nothing (42_reassembler.md R114), in DRAIN_ALL mode. -/
def Obligations.RxChunkWithoutAFrameOnlyAppends : Prop :=
  ∀ (length : Byte) (c : List Byte) (s : State), c ≠ [] → s.st.fault = .none → s.params.reassemblyMode = .drainAll →
    s.st.acc.length + c.length ≤ 17 →
    exec (.rxChunk length c) s = .next { s with st := { s.st with acc := s.st.acc ++ c }, response := some ⟨.ok, .none⟩ }

/-- 42_reassembler.md R115, the "Partial-chunk reassembly" property, in either mode: a frame fed in two chunks at a frame boundary does what it does
fed at once; the first chunk alone does nothing but append. -/
def Obligations.SplitFrameIsTheSameFrame : Prop :=
  ∀ (length : Byte) (b : Wire) (k : Nat) (s : State), 0 < k → k < 18 → s.st.acc = [] → s.st.fault = .none → s.params.inDomain = true →
    ∃ t, exec (.rxChunk length (b.list.take k)) s = .next t ∧
      t = { s with st := { s.st with acc := b.list.take k }, response := some ⟨.ok, .none⟩ } ∧
      exec (.rxChunk length (b.list.drop k)) t = exec (.rxChunk length b.list) s

/-! ### Link Controller -/

/-- FRAME_CRC_FAILED (43_link_controller.md R122): below the limit, or without one, RETX_FRAME is sent and becomes `st.lastSent`; with the
count at the limit the fault LINK_ERROR is taken and nothing is sent. The frame is discarded. -/
def Obligations.CrcFailureRequestsARetransmission : Prop :=
  ∀ (f : Frame) (s : State),
    (s.params.retxLimit = none → exec (.frameCrcFailed f) s =
      .next { s with st := { s.st with lastSent := retxFrame }, txLog := s.txLog ++ [retxFrame] }) ∧
    (∀ m, s.params.retxLimit = some m → s.st.retxCount ≠ m → exec (.frameCrcFailed f) s =
      .next { s with st := { s.st with lastSent := retxFrame, retxCount := s.st.retxCount + 1 }, txLog := s.txLog ++ [retxFrame] }) ∧
    (∀ m, s.params.retxLimit = some m → s.st.retxCount = m → s.st.fault = .none → exec (.frameCrcFailed f) s =
      .next { s with st := { s.st with fault := .linkError } })

/-- FRAME_RETX (43_link_controller.md R124): `st.lastSent` is written to the transport verbatim and stays as it is, so a second RETX replays
the same bytes; nothing is enqueued. The count is R121's. -/
def Obligations.RetxReplaysTheLastFrame : Prop :=
  ∀ s : State, ∃ t,
    exec .frameRetx s = .next t ∧ t = { s with st := { s.st with retxCount := 0 }, txLog := s.txLog ++ [s.st.lastSent] } ∧
    exec .frameRetx t = .next { t with txLog := s.txLog ++ [s.st.lastSent, s.st.lastSent] }

/-- FRAME_ACK (43_link_controller.md R125): no emission and no enqueue, and the only write is that of the count (R121). -/
def Obligations.AckHasNoEffect : Prop :=
  ∀ s : State, exec .frameAck s = .next { s with st := { s.st with retxCount := 0 } }

/-- FRAME_DATA (43_link_controller.md R126): with room in the queue, the whole frame is appended at the tail, one ACK_FRAME is written and
becomes `st.lastSent`; with the queue full the fault QUEUE_OVERFLOW is taken, and nothing is enqueued and nothing sent. -/
def Obligations.DataIsQueuedAndAcknowledged : Prop :=
  ∀ (f : Frame) (s : State),
    ((∀ d, s.params.pendingDepth = some d → s.st.pending.length ≠ d) → exec (.frameData f) s =
      .next { s with st := { s.st with pending := s.st.pending ++ [f], lastSent := ackFrame, retxCount := 0 },
                     txLog := s.txLog ++ [ackFrame] }) ∧
    (s.params.pendingDepth = some s.st.pending.length → s.st.fault = .none → exec (.frameData f) s =
      .next { s with st := { s.st with retxCount := 0, fault := .queueOverflow } })

/-- SEND_PAYLOAD (43_link_controller.md R127): a faulted block refuses it; more than 16 bytes are refused without any change; otherwise the
encoded frame is written and becomes `st.lastSent`, whether or not an earlier frame was acknowledged. -/
def Obligations.SendPayloadTransmits : Prop :=
  ∀ (length : Byte) (p : List Byte) (s : State),
    (s.st.fault ≠ .none → exec (.sendPayload length p) s = .next { s with response := some ⟨.blockFaulted, .none⟩ }) ∧
    (s.st.fault = .none → 16 < p.length →
      exec (.sendPayload length p) s = .next { s with response := some ⟨.oversizedPayload, .none⟩ }) ∧
    (s.st.fault = .none → p.length ≤ 16 → ∃ b : Wire,
      b.list = [length] ++ p ++ List.replicate (16 - p.length) 0xFF#8 ++
        [checksum ([length] ++ p ++ List.replicate (16 - p.length) 0xFF#8)] ∧
      exec (.sendPayload length p) s = .next { s with st := { s.st with lastSent := b }, txLog := s.txLog ++ [b],
                                                       response := some ⟨.ok, .none⟩ })

/-- The "Retransmission" property quoted in 43_link_controller.md R124: a sent frame is resent unchanged on the next RETX. -/
def Obligations.SentFrameIsReplayedUnchanged : Prop :=
  ∀ (length : Byte) (p : List Byte) (s : State), s.st.fault = .none → p.length ≤ 16 →
    ∃ (b : Wire) (t u : State), encodeFrame length p = some b ∧ exec (.sendPayload length p) s = .next t ∧
      exec .frameRetx t = .next u ∧ u.txLog = s.txLog ++ [b, b] ∧ u.st.lastSent = b

/-! ### The queue and its consumer -/

/-- RECEIVE_NEXT (44_payload_queue.md R141): the head of the queue is removed and returned, faulted or not; with nothing pending it holds: it
gives no response and changes nothing (that a hold is a next state whose response is none is log 5). -/
def Obligations.ReceiveNextPopsOrHolds : Prop :=
  ∀ (length : Byte) (bytes : List Byte) (s : State),
    (∀ f rest, s.st.pending = f :: rest → exec (.receiveNext length bytes) s =
      .next { s with st := { s.st with pending := rest }, response := some ⟨.ok, .frame f⟩ }) ∧
    (s.st.pending = [] → exec (.receiveNext length bytes) s = .next { s with response := none })

/-- 44_payload_queue.md R142: whatever the block does, it either appends accepted frames behind those pending, or removes the head by
RECEIVE_NEXT: nothing is lost, duplicated or reordered. -/
def Obligations.PendingIsAFifo : Prop :=
  ∀ (i : Instr) (s t : State), exec i s = .next t →
    s.st.pending <+: t.st.pending ∨
    (∃ length bytes f, i = .receiveNext length bytes ∧ s.st.pending = f :: t.st.pending ∧ t.response = some ⟨.ok, .frame f⟩)

/-- 10_state.md R28 and 44_payload_queue.md R143: a held agent's turn leaves the block and every outstanding command as they are, so it stays
held, and the commands of the other agents are taken as if it were not there. -/
def Obligations.HeldConsumerWaitsWithoutBlocking : Prop :=
  ∀ (s : State) (a : Agent) (rest : List Turn), s.held a = true → s.schedule = .agent a :: rest →
    step s = .next { s with schedule := rest, response := none } ∧
    ∀ b, b ≠ a → (takeRequest b s.requests).map (fun p => p.1) =
      (takeRequest b (s.requests.filter (fun r => r.agent ≠ a))).map (fun p => p.1)

/-- The hold is lifted by the push of 43_link_controller.md R126 and by nothing else (44_payload_queue.md R141): a held agent that a step
leaves not held has a frame pending. -/
def Obligations.OnlyAPushLiftsAHold : Prop :=
  ∀ (s t : State) (a : Agent), s.held a = true → step s = .next t → t.held a = false →
    s.st.pending = [] ∧ t.st.pending ≠ []

/-! ### Faults -/

/-- 10_state.md R26 and 60_exceptions.md R154: the first fault is the one recorded, and only a reset turn clears it. -/
def Obligations.FirstFaultStaysUntilReset : Prop :=
  (∀ (i : Instr) (s t : State), s.st.fault ≠ .none → exec i s = .next t → t.st.fault = s.st.fault) ∧
  ∀ s t : State, s.st.fault ≠ .none → step s = .next t → t.st.fault = s.st.fault ∨ ∃ rest, s.schedule = .reset :: rest

/-- 60_exceptions.md R154 and R160: a faulted block answers RX_CHUNK and SEND_PAYLOAD, of any size, with BLOCK_FAULTED and no effect. -/
def Obligations.FaultedBlockRefusesLinkTraffic : Prop :=
  ∀ (length : Byte) (bytes : List Byte) (s : State), s.st.fault ≠ .none →
    (bytes ≠ [] → exec (.rxChunk length bytes) s = .next { s with response := some ⟨.blockFaulted, .none⟩ }) ∧
    exec (.sendPayload length bytes) s = .next { s with response := some ⟨.blockFaulted, .none⟩ }

/-- 10_state.md R26 (the spec's own inference): without a bound on the queue, on the accumulator and on the retries, no fault ever arises. -/
def Obligations.DefaultParametersNeverFault : Prop :=
  ∀ s t : State, s.params.pendingDepth = none → s.params.accCapacity = none → s.params.retxLimit = none →
    s.st.fault = .none → step s = .next t → t.st.fault = .none

/-- The codes of 60_exceptions.md R151 and 10_state.md R26 (the spec's own numbers, D4, D10). -/
def Obligations.CodesAreTheTablesNumbers : Prop :=
  (∀ x : Status, statusCode x = match x with
    | .ok => 0x00#8 | .oversizedPayload => 0x01#8 | .reservedCommand => 0x02#8 | .blockFaulted => 0x03#8) ∧
  ∀ x : FaultCode, faultCodeBits x = match x with
    | .none => 0#2 | .queueOverflow => 1#2 | .accOverflow => 2#2 | .linkError => 3#2

/-! ### Two ends -/

/-- 70_reset_and_hazards.md R178 (derived there): from the livelock, any number of lossless rounds leads back to it: each end has written one
RETX_FRAME per round and nothing is ever delivered, whatever the parameters. The channel is log 17. -/
def Obligations.RetxPingPongNeverEnds : Prop :=
  ∀ (l : Link) (n : Nat), l.PingPong →
    ∃ l', l.run (rounds n) = .next l' ∧ l'.PingPong ∧
      l'.a.txLog = l.a.txLog ++ List.replicate n retxFrame ∧ l'.b.txLog = l.b.txLog ++ List.replicate n retxFrame ∧
      l'.a.st.pending = l.a.st.pending ∧ l'.b.st.pending = l.b.st.pending

/-- 00_scope.md R1: recovery of a frame that arrives corrupted. From an idle link, A sends a payload whose frame is no control frame, the channel
corrupts any one byte of it, B asks for it again, A replays it, B accepts it: it is delivered once, whole, and acknowledged. The channel is
log 17. -/
def Obligations.CorruptedFrameIsRecovered : Prop :=
  ∀ (l : Link) (k : Nat) (length : Byte) (p : List Byte) (w : Wire) (i : Fin 18) (e : Byte),
    l.Idle → encodeFrame length p = some w → w ≠ ackFrame → w ≠ retxFrame → e ≠ 0#8 →
    l.b.params.retxLimit ≠ some l.b.st.retxCount → l.b.params.pendingDepth ≠ some l.b.st.pending.length →
    ∃ l', l.run [.run .a (.consumer k) ⟨0x01#8, length, p⟩, .noise .a 1 (withError w i e).list, .wire .b, .wire .a] = .next l' ∧
      l'.b.st.pending = l.b.st.pending ++ [decodeWire w] ∧ l'.a.st.pending = l.a.st.pending ∧
      l'.a.txLog = l.a.txLog ++ [w, w] ∧ l'.b.txLog = l.b.txLog ++ [retxFrame, ackFrame]

/-- 70_reset_and_hazards.md R176 (derived there): a payload that spells a control frame does not reach the peer's queue: one that spells ACK is
silently dropped, one that spells RETX makes the peer replay its last frame. The channel is log 17. -/
def Obligations.PayloadSpellingAControlFrameIsLost : Prop :=
  ∀ (l : Link) (k : Nat) (p : List Byte), l.Idle →
    (encodeFrame 0x01#8 p = some ackFrame → ∃ l', l.run [.run .a (.consumer k) ⟨0x01#8, 0x01#8, p⟩, .wire .a] = .next l' ∧
      l'.b.st.pending = l.b.st.pending ∧ l'.b.txLog = l.b.txLog) ∧
    (encodeFrame 0x01#8 p = some retxFrame → ∃ l', l.run [.run .a (.consumer k) ⟨0x01#8, 0x01#8, p⟩, .wire .a] = .next l' ∧
      l'.b.st.pending = l.b.st.pending ∧ l'.b.txLog = l.b.txLog ++ [l.b.st.lastSent])

/-- 60_exceptions.md R165 and 70_reset_and_hazards.md R172, R181: the ends share nothing but the wire. What an end issues and runs, by a turn of
its own schedule or by one given to an agent, and its reset, leave its peer's block as it is; writes the channel loses leave both blocks, and
nothing recovers them by itself. The channel is log 17. -/
def Obligations.EndsShareNothingButTheWire : Prop :=
  ∀ (l : Link) (e : LinkEnd),
    (∀ agent c, ∃ l', l.step (.issue e agent c) = .next l' ∧ l'.block e.peer = l.block e.peer) ∧
    (∀ agent, ∃ l', l.step (.turn e agent) = .next l' ∧ l'.block e.peer = l.block e.peer) ∧
    (∃ l', l.step (.scheduled e) = .next l' ∧ step (l.block e) = .next (l'.block e) ∧ l'.block e.peer = l.block e.peer) ∧
    (∀ agent c, ∃ l', l.step (.run e agent c) = .next l' ∧ l'.block e.peer = l.block e.peer) ∧
    (∃ l', l.step (.reset e) = .next l' ∧ l'.block e.peer = l.block e.peer) ∧
    (∀ n, ∃ l', l.step (.noise e n []) = .next l' ∧ l'.a = l.a ∧ l'.b = l.b)

/-- Every event of a link keeps the link's invariant, from every link that has it: both ends' own invariants, and the channel never takes a
write that was not made (60_exceptions.md R165). The channel is log 17. -/
def Obligations.LinkEventsKeepTheInvariant : Prop :=
  ∀ (l l' : Link) (ev : LinkEvent), l.Inv → l.step ev = .next l' → l'.Inv

/-! ### The consumers' commands -/

/-- 44_payload_queue.md R143: at most one RECEIVE_NEXT is outstanding per agent. An agent that has one outstanding issues nothing more, any other
command becomes the agent's last; either way the invariant stays. That a waiting agent issues no other command either is log 20. -/
def Obligations.AtMostOneReceivePerAgent : Prop :=
  ∀ (s : State) (a : Agent), s.Inv →
    (s.requests.filter (fun r => decide (r.agent = a ∧ r.command.op = 0x02#8))).length ≤ 1 ∧
    ∀ c : Command,
      ((∃ r ∈ s.requests, r.agent = a ∧ r.command.op = 0x02#8) → s.issue a c = s) ∧
      ((∀ r ∈ s.requests, r.agent = a → r.command.op ≠ 0x02#8) → s.issue a c = { s with requests := s.requests ++ [⟨a, c⟩] }) ∧
      (s.issue a c).Inv

/-- 44_payload_queue.md R141: a RECEIVE_NEXT that was held completes at its agent's next turn once a frame is pending; the agent issues nothing
for it. Its end has the head removed, the command no longer outstanding, and the response recorded (log 2, log 3); nothing else changes. -/
def Obligations.HeldReceiveCompletesOnItsTurn : Prop :=
  ∀ (l : Link) (e : LinkEnd) (a : Agent) (c : Command) (others : List Request) (f : Frame) (rest : List Frame),
    takeRequest a (l.block e).requests = some (c, others) → c.op = 0x02#8 → (l.block e).st.pending = f :: rest →
    l.step (.turn e a) = .next (l.setBlock e { l.block e with
      st := { (l.block e).st with pending := rest }, response := some ⟨.ok, .frame f⟩, requests := others,
      responses := (l.block e).responses ++ [(a, ⟨.ok, .frame f⟩)] })

/-- 44_payload_queue.md R141, R143 over a link: while a consumer of B is held, a data frame of A arrives, B accepts and acknowledges it, and the
consumer's next turn gives it that frame. The channel is log 17. -/
def Obligations.HeldConsumerReceivesOverTheLink : Prop :=
  ∀ (l : Link) (k : Nat) (c : Command) (others : List Request) (w : Wire) (rest : List Wire),
    takeRequest (.consumer k) l.b.requests = some (c, others) → c.op = 0x02#8 → (∀ r ∈ l.b.requests, r.agent ≠ .transport) →
    l.b.st.pending = [] → l.b.st.acc = [] → l.b.st.fault = .none → l.b.params.inDomain = true →
    l.onWire .a = w :: rest → decode (.frame w) = .frameData (decodeWire w) →
    ∃ l', l.run [.wire .a, .turn .b (.consumer k)] = .next l' ∧ l'.b.requests = others ∧ l'.b.st.pending = [] ∧
      l'.b.responses = l.b.responses ++ [(.transport, ⟨.ok, .none⟩), (.consumer k, ⟨.ok, .frame (decodeWire w)⟩)] ∧
      l'.b.txLog = l.b.txLog ++ [ackFrame] ∧ l'.onWire .a = rest ∧ l'.a = l.a
end

