-- ==== Sys2Proof/Laws/Checksum.lean ====
section
/-! SUPPORT. The Checksum Unit: what one byte step does to sums and to differences of registers. -/

namespace Sys2Proof.Machine

theorem crcBit_xor (x y : Byte) : crcBit (x ^^^ y) = crcBit x ^^^ crcBit y := by
  unfold crcBit
  rw [BitVec.msb_xor, BitVec.shiftLeft_xor_distrib]
  cases x.msb <;> cases y.msb <;> simp [BitVec.xor_assoc]
  exact BitVec.xor_comm _ _

theorem crcBits_xor (k : Nat) (x y : Byte) : crcBits k (x ^^^ y) = crcBits k x ^^^ crcBits k y := by
  induction k generalizing x y with
  | zero => rfl
  | succ k ih => simp only [crcBits, crcBit_xor, ih]

/-- R81: the step depends on the register and the byte only through their exclusive-or. -/
theorem crc8Step_eq (r b : Byte) : crc8Step r b = crc8Step 0#8 (r ^^^ b) := by
  simp [crc8Step]

theorem crc8Step_xor (r r' b b' : Byte) : crc8Step (r ^^^ r') (b ^^^ b') = crc8Step r b ^^^ crc8Step r' b' := by
  have swap : (r ^^^ r') ^^^ (b ^^^ b') = (r ^^^ b) ^^^ (r' ^^^ b') := by
    rw [BitVec.xor_assoc, ← BitVec.xor_assoc r' b b', BitVec.xor_comm r' b, BitVec.xor_assoc b r' b', ← BitVec.xor_assoc]
  rw [crc8Step, swap, crcBits_xor, crc8Step, crc8Step]

/-- A step takes no difference of registers away: only 0 is taken to 0 (the reason behind R83 item 2). -/
theorem crcBits_eight_eq_zero : ∀ x : Byte, crcBits 8 x = 0#8 → x = 0#8 := by decide +kernel

theorem crc8Step_left_injective {r r' b : Byte} (h : crc8Step r b = crc8Step r' b) : r = r' := by
  have hx : crcBits 8 (r ^^^ r') = 0#8 := by
    have := crc8Step_xor r r' b b
    rw [h, BitVec.xor_self, BitVec.xor_self] at this
    simpa [crc8Step] using this
  exact BitVec.xor_eq_zero_iff.mp (crcBits_eight_eq_zero _ hx)

theorem crc8Step_right_injective {r b b' : Byte} (h : crc8Step r b = crc8Step r b') : b = b' := by
  apply crc8Step_left_injective (b := r)
  simpa [crc8Step, BitVec.xor_comm] using h

theorem foldl_crc8Step_injective (s : List Byte) {r r' : Byte} (h : s.foldl crc8Step r = s.foldl crc8Step r') : r = r' := by
  induction s generalizing r r' with
  | nil => exact h
  | cons b s ih => exact crc8Step_left_injective (ih h)

theorem checksum_append (s t : List Byte) : checksum (s ++ t) = t.foldl crc8Step (checksum s) := by
  simp [checksum, List.foldl_append]

end Sys2Proof.Machine
end

