-- ==== Sys2Proof/Laws/Codec.lean ====
section
/-! SUPPORT. The frame codec and the recognizers: what a wire frame's bytes are, and when a frame is a control frame. -/

namespace Sys2Proof.Machine

theorem Bytes.eq_of_list {n : Nat} {a b : Bytes n} (h : a.list = b.list) : a = b := by
  cases a; cases b; cases h; rfl

theorem byteAt_eq {n : Nat} (b : Bytes n) (i : Fin n) : b.list[i.val]? = some (byteAt b i) := by
  simp [byteAt, b.size]

theorem serialize_list (f : Frame) : (serialize f).list = f.length :: (f.data.list ++ [f.crc]) := rfl

theorem serialize_take (f : Frame) : (serialize f).list.take 17 = f.length :: f.data.list := by
  simp [serialize_list, f.data.size]

/-- The decoded fields put together again are the 18 bytes. -/
theorem serialize_decodeWire (b : Wire) : serialize (decodeWire b) = b := by
  apply Bytes.eq_of_list
  obtain ⟨l, hl⟩ := b
  match l, hl with
  | [_, _, _, _, _, _, _, _, _, _, _, _, _, _, _, _, _, _], _ => rfl

theorem decodeWire_serialize (f : Frame) : decodeWire (serialize f) = f := by
  obtain ⟨len, ⟨d, hd⟩, crc⟩ := f
  match d, hd with
  | [_, _, _, _, _, _, _, _, _, _, _, _, _, _, _, _], _ => rfl

theorem serialize_injective {f g : Frame} (h : serialize f = serialize g) : f = g := by
  rw [← decodeWire_serialize f, h, decodeWire_serialize]

/-- The crc check on the bytes of a wire frame (R66's first condition). -/
theorem crcOk_decodeWire (b : Wire) : crcOk (decodeWire b) = (checksum (b.list.take 17) == byteAt b 17) := by
  conv => rhs; rw [← serialize_decodeWire b]
  rw [serialize_take, crcOk, frameCrc]
  congr 1
  rw [serialize_decodeWire]; rfl

/-- A frame made locally always has a valid crc (R63, R90). -/
theorem crcOk_makeFrame (length : Byte) (data : Data) : crcOk (makeFrame length data) = true := by
  simp [crcOk, makeFrame]

theorem crcOk_eq {f : Frame} (h : crcOk f = true) : f = makeFrame f.length f.data := by
  obtain ⟨l, d, c⟩ := f
  simp only [crcOk, beq_iff_eq] at h
  simp [makeFrame, h]

theorem encodeFrame_of_le {length : Byte} {p : List Byte} (h : p.length ≤ 16) :
    encodeFrame length p = some (serialize (makeFrame length (pad p h))) := by simp [encodeFrame, h]

theorem encodeFrame_of_gt {length : Byte} {p : List Byte} (h : 16 < p.length) : encodeFrame length p = none := by
  simp [encodeFrame, Nat.not_le.mpr h]

theorem encodeFrame_valid {length : Byte} {p : List Byte} {b : Wire} (h : encodeFrame length p = some b) :
    crcOk (decodeWire b) = true := by
  unfold encodeFrame at h
  split at h
  · cases h; rw [decodeWire_serialize, crcOk_makeFrame]
  · cases h

/-- The shape of R97 and R98 as one equation on the data field. -/
theorem controlShape_iff (x : Byte) (f : Frame) :
    controlShape x f = true ↔ f.length = controlLength ∧ f.data.list = x :: List.replicate 15 padByte := by
  obtain ⟨len, ⟨d, hd⟩, crc⟩ := f
  match d, hd with
  | y :: ys, hd =>
    have hys : ys.length = 15 := by simpa using hd
    have : byteAt (⟨y :: ys, hd⟩ : Data) 0 = y := rfl
    simp only [controlShape, this, List.drop_succ_cons, List.drop_zero, Bool.and_eq_true, beq_iff_eq, List.all_eq_true,
      List.cons.injEq, List.eq_replicate_iff, hys, true_and]
    tauto

theorem isAck_not_isRetx {f : Frame} (h : isAck f = true) : isRetx f = false := by
  rw [isAck, controlShape_iff] at h
  cases hr : isRetx f
  · rfl
  · rw [isRetx, controlShape_iff, h.2] at hr
    exact absurd (List.cons.inj hr.2).1 (by decide)

/-- A control shape with a valid crc is one frame (R103). -/
theorem eq_makeFrame_of_controlShape {x : Byte} {f : Frame} (hc : crcOk f = true) (h : controlShape x f = true) :
    f = makeFrame controlLength (pad [x] (by simp)) := by
  rw [controlShape_iff] at h
  rw [crcOk_eq hc, h.1]
  congr 1
  exact Bytes.eq_of_list h.2

theorem controlShape_makeFrame (x : Byte) : controlShape x (makeFrame controlLength (pad [x] (by simp))) = true :=
  (controlShape_iff x _).mpr ⟨rfl, rfl⟩

/-- What the decoder reads from a locally serialized frame. -/
theorem decodeFrame_serialize (f : Frame) :
    decodeFrame (serialize f) = match classOf f with
      | .crcFailed => .frameCrcFailed f
      | .retx => .frameRetx
      | .ack => .frameAck
      | .data => .frameData f := by
  cases h : classOf f <;> simp [decodeFrame, classify, decodeWire_serialize, h]

theorem classOf_ack : classOf (makeFrame controlLength (pad [ackData0] (by simp))) = .ack := by
  simp [classOf, crcOk_makeFrame, isAck, controlShape_makeFrame, isAck_not_isRetx]

theorem classOf_retx : classOf (makeFrame controlLength (pad [retxData0] (by simp))) = .retx := by
  simp [classOf, crcOk_makeFrame, isRetx, controlShape_makeFrame]

theorem decodeFrame_ackFrame : decodeFrame ackFrame = .frameAck := by
  rw [ackFrame, decodeFrame_serialize, classOf_ack]

theorem decodeFrame_retxFrame : decodeFrame retxFrame = .frameRetx := by
  rw [retxFrame, decodeFrame_serialize, classOf_retx]

theorem ackFrame_valid : crcOk (decodeWire ackFrame) = true := by rw [ackFrame, decodeWire_serialize, crcOk_makeFrame]

theorem retxFrame_valid : crcOk (decodeWire retxFrame) = true := by rw [retxFrame, decodeWire_serialize, crcOk_makeFrame]

end Sys2Proof.Machine
end

