-- ==== Sys2Proof/Laws/State.lean ====
section
/-! SUPPORT. One lemma per field of State per update, each true by rfl. -/

namespace Sys2Proof.Machine

variable (s : State)

/-! ### `st.acc <- v` -/

@[simp] theorem State.setAcc_st (v : List Byte) : (s.setAcc v).st = { s.st with acc := v } := rfl
@[simp] theorem State.setAcc_params (v : List Byte) : (s.setAcc v).params = s.params := rfl
@[simp] theorem State.setAcc_txLog (v : List Byte) : (s.setAcc v).txLog = s.txLog := rfl
@[simp] theorem State.setAcc_response (v : List Byte) : (s.setAcc v).response = s.response := rfl
@[simp] theorem State.setAcc_responses (v : List Byte) : (s.setAcc v).responses = s.responses := rfl
@[simp] theorem State.setAcc_requests (v : List Byte) : (s.setAcc v).requests = s.requests := rfl
@[simp] theorem State.setAcc_schedule (v : List Byte) : (s.setAcc v).schedule = s.schedule := rfl

/-! ### `st.lastSent <- v` -/

@[simp] theorem State.setLastSent_st (v : Wire) : (s.setLastSent v).st = { s.st with lastSent := v } := rfl
@[simp] theorem State.setLastSent_params (v : Wire) : (s.setLastSent v).params = s.params := rfl
@[simp] theorem State.setLastSent_txLog (v : Wire) : (s.setLastSent v).txLog = s.txLog := rfl
@[simp] theorem State.setLastSent_response (v : Wire) : (s.setLastSent v).response = s.response := rfl
@[simp] theorem State.setLastSent_responses (v : Wire) : (s.setLastSent v).responses = s.responses := rfl
@[simp] theorem State.setLastSent_requests (v : Wire) : (s.setLastSent v).requests = s.requests := rfl
@[simp] theorem State.setLastSent_schedule (v : Wire) : (s.setLastSent v).schedule = s.schedule := rfl

/-! ### `st.pending <- v` -/

@[simp] theorem State.setPending_st (v : List Frame) : (s.setPending v).st = { s.st with pending := v } := rfl
@[simp] theorem State.setPending_params (v : List Frame) : (s.setPending v).params = s.params := rfl
@[simp] theorem State.setPending_txLog (v : List Frame) : (s.setPending v).txLog = s.txLog := rfl
@[simp] theorem State.setPending_response (v : List Frame) : (s.setPending v).response = s.response := rfl
@[simp] theorem State.setPending_responses (v : List Frame) : (s.setPending v).responses = s.responses := rfl
@[simp] theorem State.setPending_requests (v : List Frame) : (s.setPending v).requests = s.requests := rfl
@[simp] theorem State.setPending_schedule (v : List Frame) : (s.setPending v).schedule = s.schedule := rfl

/-! ### `st.retxCount <- v` -/

@[simp] theorem State.setRetxCount_st (v : Nat) : (s.setRetxCount v).st = { s.st with retxCount := v } := rfl
@[simp] theorem State.setRetxCount_params (v : Nat) : (s.setRetxCount v).params = s.params := rfl
@[simp] theorem State.setRetxCount_txLog (v : Nat) : (s.setRetxCount v).txLog = s.txLog := rfl
@[simp] theorem State.setRetxCount_response (v : Nat) : (s.setRetxCount v).response = s.response := rfl
@[simp] theorem State.setRetxCount_responses (v : Nat) : (s.setRetxCount v).responses = s.responses := rfl
@[simp] theorem State.setRetxCount_requests (v : Nat) : (s.setRetxCount v).requests = s.requests := rfl
@[simp] theorem State.setRetxCount_schedule (v : Nat) : (s.setRetxCount v).schedule = s.schedule := rfl

/-! ### `st.fault <- v` -/

@[simp] theorem State.setFault_st (v : FaultCode) : (s.setFault v).st = { s.st with fault := v } := rfl
@[simp] theorem State.setFault_params (v : FaultCode) : (s.setFault v).params = s.params := rfl
@[simp] theorem State.setFault_txLog (v : FaultCode) : (s.setFault v).txLog = s.txLog := rfl
@[simp] theorem State.setFault_response (v : FaultCode) : (s.setFault v).response = s.response := rfl
@[simp] theorem State.setFault_responses (v : FaultCode) : (s.setFault v).responses = s.responses := rfl
@[simp] theorem State.setFault_requests (v : FaultCode) : (s.setFault v).requests = s.requests := rfl
@[simp] theorem State.setFault_schedule (v : FaultCode) : (s.setFault v).schedule = s.schedule := rfl

/-! ### `emit Tx(b)` -/

@[simp] theorem emit_st (b : Wire) : (emit b s).st = s.st := rfl
@[simp] theorem emit_params (b : Wire) : (emit b s).params = s.params := rfl
@[simp] theorem emit_txLog (b : Wire) : (emit b s).txLog = s.txLog ++ [b] := rfl
@[simp] theorem emit_response (b : Wire) : (emit b s).response = s.response := rfl
@[simp] theorem emit_responses (b : Wire) : (emit b s).responses = s.responses := rfl
@[simp] theorem emit_requests (b : Wire) : (emit b s).requests = s.requests := rfl
@[simp] theorem emit_schedule (b : Wire) : (emit b s).schedule = s.schedule := rfl

/-! ### `send(x)` -/

@[simp] theorem send_st (x : Wire) : (send x s).st = { s.st with lastSent := x } := rfl
@[simp] theorem send_params (x : Wire) : (send x s).params = s.params := rfl
@[simp] theorem send_txLog (x : Wire) : (send x s).txLog = s.txLog ++ [x] := rfl
@[simp] theorem send_response (x : Wire) : (send x s).response = s.response := rfl
@[simp] theorem send_responses (x : Wire) : (send x s).responses = s.responses := rfl
@[simp] theorem send_requests (x : Wire) : (send x s).requests = s.requests := rfl
@[simp] theorem send_schedule (x : Wire) : (send x s).schedule = s.schedule := rfl

/-! ### `respond(status, value)` -/

@[simp] theorem respond_st (x : Status) (v : Value) : (respond x v s).st = s.st := rfl
@[simp] theorem respond_params (x : Status) (v : Value) : (respond x v s).params = s.params := rfl
@[simp] theorem respond_txLog (x : Status) (v : Value) : (respond x v s).txLog = s.txLog := rfl
@[simp] theorem respond_response (x : Status) (v : Value) : (respond x v s).response = some ⟨x, v⟩ := rfl
@[simp] theorem respond_responses (x : Status) (v : Value) : (respond x v s).responses = s.responses := rfl
@[simp] theorem respond_requests (x : Status) (v : Value) : (respond x v s).requests = s.requests := rfl
@[simp] theorem respond_schedule (x : Status) (v : Value) : (respond x v s).schedule = s.schedule := rfl

/-! ### the reset event -/

@[simp] theorem resetEvent_st : (resetEvent s).st = Block.reset := rfl
@[simp] theorem resetEvent_params : (resetEvent s).params = s.params := rfl
@[simp] theorem resetEvent_txLog : (resetEvent s).txLog = s.txLog := rfl
@[simp] theorem resetEvent_response : (resetEvent s).response = s.response := rfl
@[simp] theorem resetEvent_responses : (resetEvent s).responses = s.responses := rfl
@[simp] theorem resetEvent_requests : (resetEvent s).requests = s.requests := rfl
@[simp] theorem resetEvent_schedule : (resetEvent s).schedule = s.schedule := rfl

/-! ### an agent issues a command -/

/-- A waiting agent issues nothing. -/
theorem State.issue_of_waiting {a : Agent} (c : Command) (h : s.waiting a = true) : s.issue a c = s := by simp [State.issue, h]

/-- Any other agent's command becomes the last outstanding one. -/
theorem State.issue_of_not_waiting {a : Agent} (c : Command) (h : s.waiting a = false) :
    s.issue a c = { s with requests := s.requests ++ [⟨a, c⟩] } := by simp [State.issue, h]

/-- All that issuing can do: it writes `requests` only. -/
theorem State.issue_eq (a : Agent) (c : Command) :
    s.issue a c = { s with requests := if s.waiting a then s.requests else s.requests ++ [⟨a, c⟩] } := by
  unfold State.issue; split <;> rfl

@[simp] theorem State.issue_st (a : Agent) (c : Command) : (s.issue a c).st = s.st := by rw [State.issue_eq]
@[simp] theorem State.issue_params (a : Agent) (c : Command) : (s.issue a c).params = s.params := by rw [State.issue_eq]
@[simp] theorem State.issue_txLog (a : Agent) (c : Command) : (s.issue a c).txLog = s.txLog := by rw [State.issue_eq]
@[simp] theorem State.issue_response (a : Agent) (c : Command) : (s.issue a c).response = s.response := by rw [State.issue_eq]
@[simp] theorem State.issue_responses (a : Agent) (c : Command) : (s.issue a c).responses = s.responses := by rw [State.issue_eq]
@[simp] theorem State.issue_requests (a : Agent) (c : Command) :
    (s.issue a c).requests = if s.waiting a then s.requests else s.requests ++ [⟨a, c⟩] := by rw [State.issue_eq]
@[simp] theorem State.issue_schedule (a : Agent) (c : Command) : (s.issue a c).schedule = s.schedule := by rw [State.issue_eq]

/-- An agent waits exactly while it has a RECEIVE_NEXT outstanding. -/
theorem State.waiting_iff (a : Agent) : s.waiting a = true ↔ ∃ r ∈ s.requests, r.agent = a ∧ r.command.op = opReceiveNext := by
  simp [State.waiting, isReceiveOf]

/-! ### a turn is given -/

@[simp] theorem State.giveTurn_st (t : Turn) : (s.giveTurn t).st = s.st := rfl
@[simp] theorem State.giveTurn_params (t : Turn) : (s.giveTurn t).params = s.params := rfl
@[simp] theorem State.giveTurn_txLog (t : Turn) : (s.giveTurn t).txLog = s.txLog := rfl
@[simp] theorem State.giveTurn_response (t : Turn) : (s.giveTurn t).response = s.response := rfl
@[simp] theorem State.giveTurn_responses (t : Turn) : (s.giveTurn t).responses = s.responses := rfl
@[simp] theorem State.giveTurn_requests (t : Turn) : (s.giveTurn t).requests = s.requests := rfl
@[simp] theorem State.giveTurn_schedule (t : Turn) : (s.giveTurn t).schedule = t :: s.schedule := rfl

end Sys2Proof.Machine
end

