-- ==== Sys2Proof/Laws/Ops.lean ====
section
/-! SUPPORT. The shared operations: everything each of them can do, said once. -/

namespace Sys2Proof.Machine

/-! ### Faults -/

theorem raiseFault_of_none {c : FaultCode} {s : State} (h : s.st.fault = .none) : raiseFault c s = s.setFault c := by
  simp [raiseFault, h]

theorem raiseFault_of_fault {c : FaultCode} {s : State} (h : s.st.fault ≠ .none) : raiseFault c s = s := by
  simp [raiseFault, h]

/-- Raising a fault writes the fault register, or nothing. -/
theorem raiseFault_cases (c : FaultCode) (s : State) : raiseFault c s = s.setFault c ∨ (s.st.fault ≠ .none ∧ raiseFault c s = s) := by
  by_cases h : s.st.fault = .none
  · exact .inl (raiseFault_of_none h)
  · exact .inr ⟨h, raiseFault_of_fault h⟩

/-! ### The per-frame actions -/

/-- All `onCrcFailed` can do (R122). -/
theorem onCrcFailed_cases (s : State) :
    (s.params.retxLimit = none ∧ onCrcFailed s = send retxFrame s) ∨
    (∃ m, s.params.retxLimit = some m ∧ s.st.retxCount ≠ m ∧
      onCrcFailed s = send retxFrame (s.setRetxCount (s.st.retxCount + 1))) ∨
    (s.params.retxLimit = some s.st.retxCount ∧ onCrcFailed s = raiseFault .linkError s) := by
  unfold onCrcFailed
  cases h : s.params.retxLimit with
  | none => exact .inl ⟨rfl, rfl⟩
  | some m =>
    by_cases hm : s.st.retxCount = m
    · exact .inr (.inr ⟨by rw [hm], by simp [hm]⟩)
    · exact .inr (.inl ⟨m, rfl, hm, by simp [hm]⟩)

theorem pendingFull_iff (s : State) : pendingFull s = true ↔ s.params.pendingDepth = some s.st.pending.length := by
  simp [pendingFull]

/-- All `accept` can do (R126). -/
theorem accept_cases (f : Frame) (s : State) :
    (s.params.pendingDepth ≠ some s.st.pending.length ∧
      accept f s = send ackFrame (s.setPending (s.st.pending ++ [f]))) ∨
    (s.params.pendingDepth = some s.st.pending.length ∧ accept f s = raiseFault .queueOverflow s) := by
  by_cases h : s.params.pendingDepth = some s.st.pending.length
  · exact .inr ⟨h, by simp [accept, pendingFull, h]⟩
  · exact .inl ⟨h, by simp [accept, pendingFull, h]⟩

/-- All `processFrame` can do, by the class of the frame (R121). -/
theorem processFrame_cases (b : Wire) (s : State) :
    (classify b = .crcFailed ∧ processFrame b s = onCrcFailed s) ∨
    (classify b = .retx ∧ processFrame b s = replay (s.setRetxCount 0)) ∨
    (classify b = .ack ∧ processFrame b s = s.setRetxCount 0) ∨
    (classify b = .data ∧ isAck (decodeWire b) = false ∧ isRetx (decodeWire b) = false ∧ crcOk (decodeWire b) = true ∧
      processFrame b s = accept (decodeWire b) (s.setRetxCount 0)) := by
  unfold processFrame processDecoded classify classOf
  cases hc : crcOk (decodeWire b) <;> cases hr : isRetx (decodeWire b) <;> cases ha : isAck (decodeWire b) <;> simp

/-- Processing a frame is running the frame's own row of the opcode table. -/
theorem exec_decodeFrame (b : Wire) (s : State) : exec (decodeFrame b) s = .next (processFrame b s) := by
  rcases processFrame_cases b s with ⟨hc, hp⟩ | ⟨hc, hp⟩ | ⟨hc, hp⟩ | ⟨hc, -, -, -, hp⟩ <;> rw [decodeFrame, hc, hp] <;> rfl

end Sys2Proof.Machine
end

