-- ==== Sys2Proof/Laws/Reassembler.lean ====
section
/-! SUPPORT. The Receive Reassembler: frames neither read nor write the accumulator, what any property needs to survive a feed, and the
inbound stream cut into frames. -/

namespace Sys2Proof.Machine

/-! ### Frames and the accumulator -/

theorem raiseFault_setAcc (c : FaultCode) (v : List Byte) (s : State) :
    raiseFault c (s.setAcc v) = (raiseFault c s).setAcc v := by
  by_cases h : s.st.fault = .none
  · rw [raiseFault_of_none h, raiseFault_of_none (by simpa using h)]; rfl
  · rw [raiseFault_of_fault h, raiseFault_of_fault (by simpa using h)]

theorem onCrcFailed_setAcc (v : List Byte) (s : State) : onCrcFailed (s.setAcc v) = (onCrcFailed s).setAcc v := by
  unfold onCrcFailed
  simp only [State.setAcc_params, State.setAcc_st]
  cases s.params.retxLimit with
  | none => rfl
  | some m =>
    by_cases hm : s.st.retxCount = m <;> simp only [hm, if_true, if_false]
    · exact raiseFault_setAcc _ _ _
    · rfl

theorem accept_setAcc (f : Frame) (v : List Byte) (s : State) : accept f (s.setAcc v) = (accept f s).setAcc v := by
  have hfull : pendingFull (s.setAcc v) = pendingFull s := rfl
  unfold accept
  rw [hfull]
  cases pendingFull s
  · rfl
  · exact raiseFault_setAcc _ _ _

/-- `processFrame` neither reads nor writes `st.acc` (42_reassembler.md R112). -/
theorem processFrame_setAcc (b : Wire) (v : List Byte) (s : State) :
    processFrame b (s.setAcc v) = (processFrame b s).setAcc v := by
  unfold processFrame processDecoded
  cases crcOk (decodeWire b)
  · exact onCrcFailed_setAcc _ _
  · cases isRetx (decodeWire b)
    · cases isAck (decodeWire b)
      · exact accept_setAcc _ v (s.setRetxCount 0)
      · rfl
    · rfl

theorem setAcc_acc (s : State) : s.setAcc s.st.acc = s := rfl

theorem setAcc_setAcc (v w : List Byte) (s : State) : (s.setAcc v).setAcc w = s.setAcc w := rfl

theorem processFrame_acc (b : Wire) (s : State) : (processFrame b s).st.acc = s.st.acc := by
  rw [← setAcc_acc s, processFrame_setAcc]; rfl

/-! ### `exactly` -/

theorem exactly_of_length {n : Nat} {l : List Byte} (h : l.length = n) : exactly n l = some ⟨l, h⟩ := by simp [exactly, h]

theorem exactly_of_ne {n : Nat} {l : List Byte} (h : l.length ≠ n) : exactly n l = none := by simp [exactly, h]

/-! ### What survives a feed -/

theorem drainAll_cons_short {x : Byte} {c : List Byte} {s : State} (h : s.st.acc.length + 1 ≠ 18) :
    drainAll (x :: c) s = drainAll c (s.setAcc (s.st.acc ++ [x])) := by
  rw [drainAll, exactly_of_ne (by simpa using h)]

theorem drainAll_cons_full {x : Byte} {c : List Byte} {s : State} (h : (s.st.acc ++ [x]).length = 18) :
    drainAll (x :: c) s =
      if (processFrame ⟨s.st.acc ++ [x], h⟩ (s.setAcc [])).st.fault = .none
      then drainAll c (processFrame ⟨s.st.acc ++ [x], h⟩ (s.setAcc []))
      else processFrame ⟨s.st.acc ++ [x], h⟩ (s.setAcc []) := by
  rw [drainAll, exactly_of_length h]

/-- A property that appending and each frame keep is kept by a drain. -/
theorem drainAll_induction {P : State → Prop} (hacc : ∀ s v, P s → P (s.setAcc v)) (hframe : ∀ b s, P s → P (processFrame b s))
    (c : List Byte) (s : State) (h : P s) : P (drainAll c s) := by
  induction c generalizing s with
  | nil => exact h
  | cons x c ih =>
    by_cases hl : (s.st.acc ++ [x]).length = 18
    · rw [drainAll_cons_full hl]
      have ht := hframe ⟨_, hl⟩ _ (hacc s [] h)
      split
      · exact ih _ ht
      · exact ht
    · rw [drainAll_cons_short (by simpa using hl)]
      exact ih _ (hacc _ _ h)

/-- All `onePerFeed` can do (R113). -/
theorem onePerFeed_cases (c : List Byte) (s : State) :
    (∃ n, s.params.accCapacity = some n ∧ n < s.st.acc.length + c.length ∧ onePerFeed c s = raiseFault .accOverflow s) ∨
    ((∀ n, s.params.accCapacity = some n → s.st.acc.length + c.length ≤ n) ∧ s.st.acc.length + c.length < 18 ∧
      onePerFeed c s = s.setAcc (s.st.acc ++ c)) ∨
    ((∀ n, s.params.accCapacity = some n → s.st.acc.length + c.length ≤ n) ∧
      ∃ h : ((s.st.acc ++ c).take 18).length = 18,
        onePerFeed c s = processFrame ⟨(s.st.acc ++ c).take 18, h⟩ (s.setAcc ((s.st.acc ++ c).drop 18))) := by
  unfold onePerFeed
  by_cases hov : accOverflows c.length s = true
  · rw [if_pos hov]
    simp only [accOverflows, Option.any_eq_true, decide_eq_true_eq] at hov
    obtain ⟨n, hn, hlt⟩ := hov
    exact .inl ⟨n, hn, hlt, rfl⟩
  · rw [if_neg hov]
    have hcap : ∀ n, s.params.accCapacity = some n → s.st.acc.length + c.length ≤ n := fun n hn => by
      simp only [accOverflows, hn, Option.any_some, decide_eq_true_eq] at hov
      omega
    by_cases hl : ((s.st.acc ++ c).take 18).length = 18
    · exact .inr (.inr ⟨hcap, hl, by dsimp only; rw [exactly_of_length hl]⟩)
    · refine .inr (.inl ⟨hcap, ?_, by dsimp only; rw [exactly_of_ne hl]⟩)
      simp only [List.length_take, List.length_append] at hl
      omega

/-- A property that appending, each frame, and an accumulator overflow where it can happen keep, is kept by a feed. -/
theorem feed_induction {P : State → Prop} (hacc : ∀ s v, P s → P (s.setAcc v)) (hframe : ∀ b s, P s → P (processFrame b s))
    (hover : ∀ s, s.params.reassemblyMode = .onePerFeed → s.params.accCapacity ≠ none → P s → P (raiseFault .accOverflow s))
    (c : List Byte) (s : State) (h : P s) : P (feed c s) := by
  unfold feed
  cases hm : s.params.reassemblyMode with
  | drainAll => exact drainAll_induction hacc hframe c s h
  | onePerFeed =>
    rcases onePerFeed_cases c s with ⟨n, hn, -, e⟩ | ⟨-, -, e⟩ | ⟨-, hl, e⟩ <;> simp only [e]
    · exact hover s hm (by simp [hn]) h
    · exact hacc _ _ h
    · exact hframe _ _ (hacc _ _ h)

/-- All RX_CHUNK can do (R114). -/
theorem execRxChunk_cases (length : Byte) (c : List Byte) (s : State) :
    (c = [] ∧ execRxChunk length c s = complete .reservedCommand .none s) ∨
    (c ≠ [] ∧ s.st.fault ≠ .none ∧ execRxChunk length c s = complete .blockFaulted .none s) ∨
    (c ≠ [] ∧ s.st.fault = .none ∧ (feed c s).st.fault = .none ∧ execRxChunk length c s = complete .ok .none (feed c s)) ∨
    (c ≠ [] ∧ s.st.fault = .none ∧ (feed c s).st.fault ≠ .none ∧ execRxChunk length c s = complete .blockFaulted .none (feed c s)) := by
  unfold execRxChunk
  by_cases hc : c = [] <;> by_cases hf : s.st.fault = .none <;> by_cases ht : (feed c s).st.fault = .none <;> simp [hc, hf, ht]

/-! ### Chunks one after another -/

/-- A drain of two chunks is a drain of the first and then, where no fault arose, of the second. -/
theorem drainAll_append (c d : List Byte) (s : State) (h : s.st.fault = .none) :
    drainAll (c ++ d) s = if (drainAll c s).st.fault = .none then drainAll d (drainAll c s) else drainAll c s := by
  induction c generalizing s with
  | nil => simp [drainAll, h]
  | cons x c ih =>
    rw [List.cons_append]
    by_cases hl : (s.st.acc ++ [x]).length = 18
    · rw [drainAll_cons_full hl, drainAll_cons_full hl]
      by_cases ht : (processFrame ⟨s.st.acc ++ [x], hl⟩ (s.setAcc [])).st.fault = .none
      · rw [if_pos ht, if_pos ht, ih _ ht]
      · rw [if_neg ht, if_neg ht, if_neg ht]
    · rw [drainAll_cons_short (by simpa using hl), drainAll_cons_short (by simpa using hl), ih _ (by simpa using h)]

/-! ### The stream in frames -/

theorem runFrames_nil (s : State) : runFrames [] s = s := rfl

theorem runFrames_cons (b : Wire) (bs : List Wire) (s : State) :
    runFrames (b :: bs) s = if (processFrame b s).st.fault = .none then runFrames bs (processFrame b s) else processFrame b s := by
  rw [runFrames, exec_decodeFrame]

theorem streamFrames_of_short {s : List Byte} (h : s.length ≤ 17) : streamFrames s = [] := by
  have : s.length / 18 = 0 := by omega
  simp [streamFrames, this]

theorem streamRest_of_short {s : List Byte} (h : s.length ≤ 17) : streamRest s = s := by
  have : s.length / 18 = 0 := by omega
  simp [streamRest, this]

/-- A whole frame at the front of the stream is its first frame. -/
theorem streamFrames_append (b : Wire) (s : List Byte) : streamFrames (b.list ++ s) = b :: streamFrames s := by
  have hlen : (b.list ++ s).length / 18 = s.length / 18 + 1 := by
    rw [List.length_append, b.size]; omega
  have hzero : exactly 18 (((b.list ++ s).drop (18 * 0)).take 18) = some b := by
    rw [Nat.mul_zero, List.drop_zero, List.take_append_of_le_length (by rw [b.size]), List.take_of_length_le (by rw [b.size])]
    rw [exactly_of_length b.size]
  rw [streamFrames, hlen, List.range_succ_eq_map, List.filterMap_cons, hzero, List.filterMap_map, streamFrames]
  refine congrArg (List.cons b) (List.filterMap_congr ?_)
  intro k _
  have : (b.list ++ s).drop (18 * (k + 1)) = s.drop (18 * k) := by
    rw [List.drop_append, b.size, List.drop_eq_nil_of_le (by rw [b.size]; omega), List.nil_append]
    exact congrArg (fun n => s.drop n) (by omega)
  simp only [Function.comp, Nat.succ_eq_add_one, this]

theorem streamRest_append (b : Wire) (s : List Byte) : streamRest (b.list ++ s) = streamRest s := by
  have hlen : (b.list ++ s).length / 18 = s.length / 18 + 1 := by
    rw [List.length_append, b.size]; omega
  rw [streamRest, hlen, List.drop_append, b.size, List.drop_eq_nil_of_le (by rw [b.size]; omega), List.nil_append, streamRest]
  exact congrArg (fun n => s.drop n) (by omega)

end Sys2Proof.Machine
end

