-- ==== Sys2Proof/Laws/Independence.lean ====
section
/-! SUPPORT. What the frames do not read: a change of the port, of the responses or of the parameters they do not consult goes through them
unchanged. -/

namespace Sys2Proof.Machine

/-- A change of a state that leaves all that a frame reads, and goes through the writes it makes. -/
structure Unread (g : State → State) : Prop where
  st : ∀ s, (g s).st = s.st
  tx : ∀ s, (g s).txLog = s.txLog
  depth : ∀ s, (g s).params.pendingDepth = s.params.pendingDepth
  limit : ∀ s, (g s).params.retxLimit = s.params.retxLimit
  update : ∀ s a b, g { s with st := a, txLog := b } = { g s with st := a, txLog := b }

namespace Unread

variable {g : State → State} (hg : Unread g)
include hg

theorem setSt (s : State) (a : Block) : { g s with st := a } = g { s with st := a } := by
  have h := hg.update s a s.txLog
  rw [show ({ s with st := a, txLog := s.txLog } : State) = { s with st := a } from rfl] at h
  rw [h, ← hg.tx s]

theorem setAcc (v : List Byte) (s : State) : (g s).setAcc v = g (s.setAcc v) := by
  simp only [State.setAcc, hg.st]; exact hg.setSt s _

theorem setRetxCount (v : Nat) (s : State) : (g s).setRetxCount v = g (s.setRetxCount v) := by
  simp only [State.setRetxCount, hg.st]; exact hg.setSt s _

theorem setPending (v : List Frame) (s : State) : (g s).setPending v = g (s.setPending v) := by
  simp only [State.setPending, hg.st]; exact hg.setSt s _

theorem raiseFault (c : FaultCode) (s : State) : raiseFault c (g s) = g (raiseFault c s) := by
  unfold Machine.raiseFault
  rw [hg.st]
  by_cases h : s.st.fault = .none
  · simp only [h, if_true, State.setFault, hg.st]; exact hg.setSt s _
  · simp only [h, if_false]

theorem send (x : Wire) (s : State) : send x (g s) = g (send x s) := by
  have h := hg.update s { s.st with lastSent := x } (s.txLog ++ [x])
  simp only [Machine.send, emit, State.setLastSent, hg.st, hg.tx]
  exact h.symm

theorem replay (s : State) : replay (g s) = g (replay s) := by
  have h := hg.update s s.st (s.txLog ++ [s.st.lastSent])
  simp only [Machine.replay, emit, hg.st, hg.tx]
  rw [show g { s with txLog := s.txLog ++ [s.st.lastSent] } = { g s with st := s.st, txLog := s.txLog ++ [s.st.lastSent] } from h,
    ← hg.st s]

theorem onCrcFailed (s : State) : onCrcFailed (g s) = g (onCrcFailed s) := by
  unfold Machine.onCrcFailed
  rw [hg.limit, hg.st]
  cases s.params.retxLimit with
  | none => exact hg.send _ _
  | some m =>
    by_cases h : s.st.retxCount = m
    · simp only [h, if_true]; exact hg.raiseFault _ _
    · simp only [h, if_false]; rw [hg.setRetxCount, hg.send]

theorem accept (f : Frame) (s : State) : accept f (g s) = g (accept f s) := by
  have hfull : pendingFull (g s) = pendingFull s := by unfold pendingFull; rw [hg.depth, hg.st]
  unfold Machine.accept
  rw [hfull]
  cases pendingFull s
  · simp only [Bool.false_eq_true, if_false]; rw [hg.st, hg.setPending, hg.send]
  · simp only [if_true]; exact hg.raiseFault _ _

theorem processFrame (b : Wire) (s : State) : processFrame b (g s) = g (processFrame b s) := by
  unfold Machine.processFrame processDecoded
  rw [hg.setRetxCount]
  cases crcOk (decodeWire b)
  · exact hg.onCrcFailed s
  · cases isRetx (decodeWire b)
    · cases isAck (decodeWire b)
      · exact hg.accept _ _
      · rfl
    · exact hg.replay _

theorem drainAll (c : List Byte) (s : State) : drainAll c (g s) = g (drainAll c s) := by
  induction c generalizing s with
  | nil => rfl
  | cons x c ih =>
    simp only [Machine.drainAll, hg.st, hg.setAcc]
    cases exactly 18 (s.st.acc ++ [x]) with
    | none => exact ih _
    | some b =>
      simp only [hg.processFrame, hg.st]
      split
      · exact ih _
      · rfl

end Unread

/-- The response port, the responses given, the outstanding commands and the schedule are not read by a frame. -/
theorem unread_port (response : Option Response) (responses : List (Agent × Response)) (requests : List Request) (schedule : List Turn) :
    Unread (fun s => { s with response := response, responses := responses, requests := requests, schedule := schedule }) :=
  ⟨fun _ => rfl, fun _ => rfl, fun _ => rfl, fun _ => rfl, fun _ _ _ => rfl⟩

theorem unread_response (r : Option Response) : Unread (fun s => { s with response := r }) :=
  ⟨fun _ => rfl, fun _ => rfl, fun _ => rfl, fun _ => rfl, fun _ _ _ => rfl⟩

/-- REASSEMBLY_MODE and ACC_CAPACITY are not read by a frame. -/
theorem unread_mode (m : ReassemblyMode) (capacity : Option Nat) :
    Unread (fun s => { s with params := { s.params with reassemblyMode := m, accCapacity := capacity } }) :=
  ⟨fun _ => rfl, fun _ => rfl, fun _ => rfl, fun _ => rfl, fun _ _ _ => rfl⟩

end Sys2Proof.Machine
end

