-- ==== Sys2Proof/Laws/Step.lean ====
section
/-! SUPPORT. What a step can do, said once, and what a property needs to survive every instruction and every step. -/

namespace Sys2Proof.Machine

/-! ### The command port -/

theorem takeRequest_none {a : Agent} {rs : List Request} (h : ∀ r ∈ rs, r.agent ≠ a) : takeRequest a rs = none := by
  induction rs with
  | nil => rfl
  | cons r rs ih =>
    rw [takeRequest, if_neg (h r (by simp)), ih (fun x hx => h x (List.mem_cons_of_mem r hx))]
    rfl

theorem takeRequest_single (a : Agent) (c : Command) : takeRequest a [⟨a, c⟩] = some (c, []) := by simp [takeRequest]

/-- What is taken leaves the others in their order. -/
theorem takeRequest_sublist {a : Agent} {rs others : List Request} {c : Command} (h : takeRequest a rs = some (c, others)) :
    others.Sublist rs := by
  induction rs generalizing others with
  | nil => cases h
  | cons r rs ih =>
    by_cases ha : r.agent = a
    · simp only [takeRequest, ha, if_true, Option.some.injEq, Prod.mk.injEq] at h
      exact h.2 ▸ List.sublist_cons_self r rs
    · simp only [takeRequest, ha, if_false, Option.map_eq_some_iff, Prod.mk.injEq] at h
      obtain ⟨⟨c', o⟩, hp, rfl, rfl⟩ := h
      exact (ih hp).cons_cons r

/-- Taking one agent's command away leaves another agent's first command its first. -/
theorem takeRequest_of_other {a b : Agent} (h : b ≠ a) {rs others : List Request} {c : Command}
    (hr : takeRequest b rs = some (c, others)) :
    (takeRequest a others).map (fun p => p.1) = (takeRequest a rs).map (fun p => p.1) := by
  induction rs generalizing c others with
  | nil => simp [takeRequest] at hr
  | cons r rs ih =>
    by_cases hb : r.agent = b
    · simp only [takeRequest, hb, if_true, Option.some.injEq, Prod.mk.injEq] at hr
      obtain ⟨rfl, rfl⟩ := hr
      simp [takeRequest, hb, h, Option.map_map, Function.comp_def]
    · simp only [takeRequest, hb, if_false, Option.map_eq_some_iff] at hr
      obtain ⟨⟨c', o'⟩, hp, e⟩ := hr
      simp only [Prod.mk.injEq] at e
      obtain ⟨rfl, rfl⟩ := e
      by_cases ha : r.agent = a
      · simp [takeRequest, ha]
      · simpa [takeRequest, ha, Option.map_map, Function.comp_def] using ih hp

/-- All `settle` can do. -/
theorem settle_cases (a : Agent) (others : List Request) (t : State) :
    (t.response = none ∧ settle a others t = t) ∨
    ∃ r, t.response = some r ∧ settle a others t = { t with requests := others, responses := t.responses ++ [(a, r)] } := by
  unfold settle
  cases h : t.response <;> simp

/-- All a step can do: idle, reset, an idle turn, or one agent's decoded command and the settling of it. -/
theorem step_cases {s t : State} (h : step s = .next t) :
    (s.schedule = [] ∧ t = s) ∨
    (∃ rest, s.schedule = .reset :: rest ∧ t = resetEvent { s with schedule := rest }) ∨
    (∃ a rest, s.schedule = .agent a :: rest ∧ takeRequest a s.requests = none ∧ t = { s with schedule := rest }) ∨
    (∃ a rest c others u, s.schedule = .agent a :: rest ∧ takeRequest a s.requests = some (c, others) ∧
      exec (decodeCommand c) { s with schedule := rest } = .next u ∧ t = settle a others u) := by
  unfold step at h
  split at h
  · cases h; exact .inl ⟨by assumption, rfl⟩
  · cases h; exact .inr (.inl ⟨_, by assumption, rfl⟩)
  · rename_i a rest hs
    unfold agentTurn at h
    split at h
    · cases h; exact .inr (.inr (.inl ⟨_, _, hs, by assumption, rfl⟩))
    · rename_i c o hr
      split at h
      · cases h; rename_i u hu
        exact .inr (.inr (.inr ⟨_, _, _, _, _, hs, hr, hu, rfl⟩))
      · cases h
      · cases h

theorem decodeCommand_ne_frameData (c : Command) (f : Frame) : decodeCommand c ≠ .frameData f := by
  unfold decodeCommand
  repeat' split
  all_goals simp

/-! ### What survives every frame, every instruction and every step -/

/-- A property that each action of the Link Controller keeps is kept by every frame. -/
theorem processFrame_induction {P : State → Prop}
    (hcount : ∀ s, P s → P (s.setRetxCount 0)) (hcrc : ∀ s, P s → P (onCrcFailed s)) (hreplay : ∀ s, P s → P (replay s))
    (haccept : ∀ f s, isAccepted f = true → P s → P (accept f s)) (b : Wire) (s : State) (h : P s) : P (processFrame b s) := by
  rcases processFrame_cases b s with ⟨_, e⟩ | ⟨_, e⟩ | ⟨_, e⟩ | ⟨_, ha, hr, hc, e⟩ <;> rw [e]
  · exact hcrc _ h
  · exact hreplay _ (hcount _ h)
  · exact hcount _ h
  · exact haccept _ _ (by simp [isAccepted, ha, hr, hc]) (hcount _ h)

/-- A property that every shared operation keeps is kept by every instruction (for FRAME_DATA, of a frame of its class). -/
theorem exec_induction {P : State → Prop}
    (hacc : ∀ s v, P s → P (s.setAcc v))
    (hover : ∀ s, s.params.reassemblyMode = .onePerFeed → s.params.accCapacity ≠ none → P s → P (raiseFault .accOverflow s))
    (hcount : ∀ s, P s → P (s.setRetxCount 0)) (hcrc : ∀ s, P s → P (onCrcFailed s)) (hreplay : ∀ s, P s → P (replay s))
    (haccept : ∀ f s, isAccepted f = true → P s → P (accept f s))
    (hsend : ∀ l p b s, encodeFrame l p = some b → P s → P (send b s))
    (hpop : ∀ f rest s, s.st.pending = f :: rest → P s → P (s.setPending rest))
    (hresp : ∀ r s, P s → P { s with response := r })
    (i : Instr) (hi : ∀ f, i = .frameData f → isAccepted f = true) (s t : State) (h : P s) (he : exec i s = .next t) : P t := by
  have hframe := processFrame_induction hcount hcrc hreplay haccept
  cases i with
  | rxChunk l c =>
    have hf := feed_induction hacc hframe hover c s h
    rcases execRxChunk_cases l c s with ⟨_, e⟩ | ⟨_, _, e⟩ | ⟨_, _, _, e⟩ | ⟨_, _, _, e⟩ <;> rw [exec, e] at he <;> cases he
    · exact hresp _ _ h
    · exact hresp _ _ h
    · exact hresp _ _ hf
    · exact hresp _ _ hf
  | sendPayload l c =>
    simp only [exec, execSendPayload] at he
    split at he
    · cases he; exact hresp _ _ h
    · split at he <;> cases he
      · exact hresp _ _ h
      · exact hresp _ _ (hsend _ _ _ _ (by assumption) h)
  | receiveNext l c =>
    simp only [exec, execReceiveNext] at he
    split at he <;> cases he
    · exact hresp _ _ h
    · exact hresp _ _ (hpop _ _ _ (by assumption) h)
  | crc8 l c => cases he; exact hresp _ _ h
  | encode l c => simp only [exec, execEncode] at he; split at he <;> cases he <;> exact hresp _ _ h
  | decode l c => simp only [exec, execDecode] at he; split at he <;> cases he <;> exact hresp _ _ h
  | reserved o l c => cases he; exact hresp _ _ h
  | frameRetx => cases he; exact hreplay _ (hcount _ h)
  | frameAck => cases he; exact hcount _ h
  | frameCrcFailed f => cases he; exact hcrc _ h
  | frameData f => cases he; exact haccept _ _ (hi f rfl) (hcount _ h)

/-- A property that every shared operation, the port's bookkeeping and the reset event keep is kept by every step. -/
theorem step_induction {P : State → Prop}
    (hacc : ∀ s v, P s → P (s.setAcc v))
    (hover : ∀ s, s.params.reassemblyMode = .onePerFeed → s.params.accCapacity ≠ none → P s → P (raiseFault .accOverflow s))
    (hcount : ∀ s, P s → P (s.setRetxCount 0)) (hcrc : ∀ s, P s → P (onCrcFailed s)) (hreplay : ∀ s, P s → P (replay s))
    (haccept : ∀ f s, isAccepted f = true → P s → P (accept f s))
    (hsend : ∀ l p b s, encodeFrame l p = some b → P s → P (send b s))
    (hpop : ∀ f rest s, s.st.pending = f :: rest → P s → P (s.setPending rest))
    (hresp : ∀ r s, P s → P { s with response := r })
    (hport : ∀ s requests new schedule, P s →
      P { s with requests := requests, responses := s.responses ++ new, schedule := schedule })
    (hreset : ∀ s, P s → P (resetEvent s))
    (s t : State) (h : P s) (he : step s = .next t) : P t := by
  have hp : ∀ rest, P { s with schedule := rest } := fun rest => by
    simpa using hport s s.requests [] rest h
  rcases step_cases he with ⟨_, e⟩ | ⟨rest, _, e⟩ | ⟨a, rest, _, _, e⟩ | ⟨a, rest, c, o, u, _, _, hu, e⟩ <;> subst e
  · exact h
  · exact hreset _ (hp _)
  · exact hp _
  · have hPu := exec_induction hacc hover hcount hcrc hreplay haccept hsend hpop hresp _
      (fun f e => absurd e (decodeCommand_ne_frameData c f)) _ _ (hp rest) hu
    rcases settle_cases a o u with ⟨_, e⟩ | ⟨r, _, e⟩ <;> rw [e]
    · exact hPu
    · exact hport _ _ _ _ hPu

/-! ### The outstanding commands -/

/-- No instruction touches the outstanding commands. -/
theorem exec_requests {i : Instr} {s t : State} (hi : ∀ f, i = .frameData f → isAccepted f = true) (h : exec i s = .next t) :
    t.requests = s.requests := by
  have raise : ∀ c (u : State), (raiseFault c u).requests = u.requests := fun c u => by
    rcases raiseFault_cases c u with e | ⟨_, e⟩ <;> rw [e]; rfl
  refine exec_induction (P := fun u => u.requests = s.requests) (fun u v hu => hu) (fun u _ _ hu => (raise _ u).trans hu) (fun u hu => hu)
    (fun u hu => ?_) (fun u hu => hu) (fun f u _ hu => ?_) (fun l p b u _ hu => hu) (fun f rest u _ hu => hu) (fun r u hu => hu) i hi s t rfl h
  · rcases onCrcFailed_cases u with ⟨_, e⟩ | ⟨_, _, _, e⟩ | ⟨_, e⟩ <;> rw [e]
    · exact hu
    · exact hu
    · exact (raise _ u).trans hu
  · rcases accept_cases f u with ⟨_, e⟩ | ⟨_, e⟩ <;> rw [e]
    · exact hu
    · exact (raise _ u).trans hu

/-- A step only ever takes outstanding commands away. -/
theorem step_requests {s t : State} (h : step s = .next t) : t.requests.Sublist s.requests := by
  rcases step_cases h with ⟨_, e⟩ | ⟨rest, _, e⟩ | ⟨a, rest, _, _, e⟩ | ⟨a, rest, c, others, u, _, hr, hu, e⟩ <;> subst e
  · exact .refl _
  · exact .refl _
  · exact .refl _
  · have hu' := exec_requests (fun f e => absurd e (decodeCommand_ne_frameData c f)) hu
    rcases settle_cases a others u with ⟨_, e⟩ | ⟨r, _, e⟩ <;> rw [e]
    · rw [hu']
    · exact takeRequest_sublist hr

end Sys2Proof.Machine
end

