-- ==== Sys2Proof/Laws/Network.lean ====
section
/-! SUPPORT. What an event of a link can do, said once. -/

namespace Sys2Proof.Machine

variable {l l' : Link}

/-! ### The parts of a link -/

@[simp] theorem Link.block_setBlock (e : LinkEnd) (s : State) : (l.setBlock e s).block e = s := by cases e <;> rfl
@[simp] theorem Link.block_peer_setBlock (e : LinkEnd) (s : State) : (l.setBlock e s).block e.peer = l.block e.peer := by cases e <;> rfl
@[simp] theorem Link.block_takeWrites (n : Nat) (e e' : LinkEnd) : (l.takeWrites n e).block e' = l.block e' := by cases e <;> cases e' <;> rfl

/-- All that advancing an end can do: one step of its block. -/
theorem advance_cases {e : LinkEnd} {s : State} (h : l.advance e s = .next l') : ∃ t, step s = .next t ∧ l' = l.setBlock e t := by
  unfold Link.advance at h
  split at h <;> cases h
  exact ⟨_, by assumption, rfl⟩

/-- What every event of a link keeps: what issuing a command, a step of an end under any schedule, and taking writes off the wire keep. -/
theorem link_step_induction {P : Link → Prop}
    (hissue : ∀ l e agent c, P l → P (l.issue e agent c))
    (hstep : ∀ l e turns t, P l → step { Link.block l e with schedule := turns } = .next t → P (l.setBlock e t))
    (htake : ∀ l n e, n ≤ (Link.onWire l e).length → P l → P (l.takeWrites n e))
    (ev : LinkEvent) (h : P l) (he : l.step ev = .next l') : P l' := by
  have hadvance : ∀ {l l' : Link} {e : LinkEnd} {turns : List Turn}, P l →
      l.advance e { l.block e with schedule := turns } = .next l' → P l' := fun h he => by
    obtain ⟨t, ht, rfl⟩ := advance_cases he
    exact hstep _ _ _ _ h ht
  have hturn : ∀ {l l' : Link} {e : LinkEnd} {agent : Agent}, P l → l.turn e agent = .next l' → P l' := fun {l _ e agent} h he =>
    hadvance (turns := .agent agent :: (l.block e).schedule) h he
  have hdeliver : ∀ {l l' : Link} {e : LinkEnd} {bytes : List Byte}, P l → l.deliver e bytes = .next l' → P l' := fun h he => by
    unfold Link.deliver at he
    split at he
    · cases he; exact h
    · exact hturn (hissue _ _ _ _ h) he
  cases ev with
  | issue e agent c => cases he; exact hissue _ _ _ _ h
  | turn e agent => exact hturn h he
  | scheduled e => exact hadvance (turns := (l.block e).schedule) h he
  | run e agent c => exact hturn (hissue _ _ _ _ h) he
  | reset e => exact hadvance (turns := .reset :: (l.block e).schedule) h he
  | wire e =>
    simp only [Link.step] at he
    split at he
    · cases he; exact h
    · rename_i w rest hw
      split at he
      · exact hdeliver (htake _ _ _ (by simp [hw]) h) he
      · cases he; exact h
  | noise e n bytes =>
    simp only [Link.step] at he
    split at he
    · exact hdeliver (htake _ _ _ (Nat.min_le_right _ _) h) he
    · cases he; exact h

end Sys2Proof.Machine
end

