-- ==== Sys2Proof/Laws/PerInstr.lean ====
section
/-! SUPPORT. Statements about every instruction, one lemma per constructor. RoundTrip: a well-formed instruction survives encoding and
decoding. -/

namespace Sys2Proof.Laws

open Machine

def RoundTrip.Statement (i : Instr) : Prop := i.wellFormed = true → decode (encode i) = i

theorem not_reservedForm {op : Byte} {bytes : List Byte} (hop : op ≤ lastOp) (hrx : op = opRxChunk → bytes.isEmpty = false)
    (hdec : op = opDecode → bytes.length = 18) : reservedForm op bytes = false := by
  have h1 : ¬ lastOp < op := BitVec.not_lt.mpr hop
  by_cases h2 : op = opRxChunk <;> by_cases h3 : op = opDecode <;> simp_all [reservedForm]

theorem RoundTrip.rxChunk (length : Byte) (bytes : List Byte) : RoundTrip.Statement (.rxChunk length bytes) := by
  intro h
  have hr : reservedForm opRxChunk bytes = false :=
    not_reservedForm (by decide) (fun _ => by simpa [Instr.wellFormed] using h) (fun e => absurd e (by decide))
  simp [encode, decode, decodeCommand, hr]

theorem RoundTrip.sendPayload (length : Byte) (bytes : List Byte) : RoundTrip.Statement (.sendPayload length bytes) := by
  intro _
  have hr : reservedForm opSendPayload bytes = false :=
    not_reservedForm (by decide) (fun e => absurd e (by decide)) (fun e => absurd e (by decide))
  rw [Sys2Proof.encode, Sys2Proof.decode, decodeCommand, hr]; rfl

theorem RoundTrip.receiveNext (length : Byte) (bytes : List Byte) : RoundTrip.Statement (.receiveNext length bytes) := by
  intro _
  have hr : reservedForm opReceiveNext bytes = false :=
    not_reservedForm (by decide) (fun e => absurd e (by decide)) (fun e => absurd e (by decide))
  rw [Sys2Proof.encode, Sys2Proof.decode, decodeCommand, hr]; rfl

theorem RoundTrip.crc8 (length : Byte) (bytes : List Byte) : RoundTrip.Statement (.crc8 length bytes) := by
  intro _
  have hr : reservedForm opCrc8 bytes = false :=
    not_reservedForm (by decide) (fun e => absurd e (by decide)) (fun e => absurd e (by decide))
  rw [Sys2Proof.encode, Sys2Proof.decode, decodeCommand, hr]; rfl

theorem RoundTrip.encode (length : Byte) (bytes : List Byte) : RoundTrip.Statement (.encode length bytes) := by
  intro _
  have hr : reservedForm opEncode bytes = false :=
    not_reservedForm (by decide) (fun e => absurd e (by decide)) (fun e => absurd e (by decide))
  rw [Sys2Proof.encode, Sys2Proof.decode, decodeCommand, hr]; rfl

theorem RoundTrip.decode (length : Byte) (bytes : List Byte) : RoundTrip.Statement (.decode length bytes) := by
  intro h
  have hr : reservedForm opDecode bytes = false :=
    not_reservedForm (by decide) (fun e => absurd e (by decide)) (fun _ => by simpa [Instr.wellFormed] using h)
  rw [Sys2Proof.encode, Sys2Proof.decode, decodeCommand, hr]; rfl

theorem RoundTrip.reserved (op length : Byte) (bytes : List Byte) : RoundTrip.Statement (.reserved op length bytes) := by
  intro h
  have hr : reservedForm op bytes = true := h
  simp [Sys2Proof.encode, Sys2Proof.decode, decodeCommand, hr]

theorem RoundTrip.frameRetx : RoundTrip.Statement .frameRetx := fun _ => decodeFrame_retxFrame

theorem RoundTrip.frameAck : RoundTrip.Statement .frameAck := fun _ => decodeFrame_ackFrame

theorem RoundTrip.frameCrcFailed (f : Frame) : RoundTrip.Statement (.frameCrcFailed f) := by
  intro h
  have hc : classOf f = .crcFailed := by
    have hf : crcOk f = false := by simpa [Instr.wellFormed] using h
    simp [classOf, hf]
  simp [Sys2Proof.encode, Sys2Proof.decode, decodeFrame_serialize, hc]

theorem RoundTrip.frameData (f : Frame) : RoundTrip.Statement (.frameData f) := by
  intro h
  have hc : classOf f = .data := by
    have hf : (crcOk f = true ∧ isRetx f = false) ∧ isAck f = false := by simpa [Instr.wellFormed] using h
    simp [classOf, hf.1.1, hf.1.2, hf.2]
  simp [Sys2Proof.encode, Sys2Proof.decode, decodeFrame_serialize, hc]

end Sys2Proof.Laws
end

