-- ==== Sys2Proof/Tests/Slice0.lean ====
section
/-! SUPPORT. The model's own tests. Expected values are from 95_test_vectors.md (cited as V<n>, P<n>) and from the encodings of
30_encoding.md; each test is one instruction or one step. Then one witness for every statement that has hypotheses. -/

namespace Sys2Proof.Tests

open Sys2Proof.Machine

-- One kernel evaluation at a time: side by side they ask for more stacks than a limited process has.
set_option Elab.async false

/-! ### The vectors' frames and a few states -/

def ones (k : Nat) : List Byte := List.replicate k 0xFF#8

/-- `E` of 95_test_vectors.md. -/
def wireE : Wire := ⟨[0x03#8, 0x01#8, 0x02#8, 0x03#8] ++ ones 13 ++ [0xF6#8], rfl⟩

/-- `E'`: `E` with its crc corrupted. -/
def wireE' : Wire := ⟨[0x03#8, 0x01#8, 0x02#8, 0x03#8] ++ ones 13 ++ [0xF7#8], rfl⟩

/-- `H`. -/
def wireH : Wire := ⟨[0x05#8, 0x48#8, 0x45#8, 0x4C#8, 0x4C#8, 0x4F#8] ++ ones 11 ++ [0x7D#8], rfl⟩

/-- `ACK_FRAME` and `RETX_FRAME`, written out from R64. -/
def wireAck : Wire := ⟨[0x01#8, 0x15#8] ++ ones 15 ++ [0x27#8], rfl⟩
def wireRetx : Wire := ⟨[0x01#8, 0x19#8] ++ ones 15 ++ [0x3F#8], rfl⟩

/-- `E` as a Frame value (V8). -/
def frameE : Frame := ⟨0x03#8, ⟨[0x01#8, 0x02#8, 0x03#8] ++ ones 13, rfl⟩, 0xF6#8⟩
def frameE' : Frame := ⟨0x03#8, ⟨[0x01#8, 0x02#8, 0x03#8] ++ ones 13, rfl⟩, 0xF7#8⟩
def frameH : Frame := ⟨0x05#8, ⟨[0x48#8, 0x45#8, 0x4C#8, 0x4C#8, 0x4F#8] ++ ones 11, rfl⟩, 0x7D#8⟩

/-- The reset state with other parameters and another block. -/
def stateOf (p : Params) (st : Block) : State := { State.resetWith p with st := st }

def boundedQueue (depth : Nat) : Params := { Params.default with pendingDepth := some depth }
def boundedRetries (limit : Nat) : Params := { Params.default with retxLimit := some limit }
def boundedAcc (capacity : Nat) : Params := { Params.default with reassemblyMode := .onePerFeed, accCapacity := some capacity }

/-- A faulted block with nothing pending. -/
def faulted : State := stateOf (boundedRetries 1) { Block.reset with retxCount := 1, fault := .linkError }

/-- `s` with commands outstanding and turns given. -/
def withPort (requests : List Request) (schedule : List Turn) (s : State) : State := { s with requests := requests, schedule := schedule }

def recvCommand : Command := ⟨0x02#8, 0#8, []⟩
def rxCommand (bytes : List Byte) : Command := ⟨0x00#8, 0#8, bytes⟩

/-- The outcome is a next state that passes `p`. -/
def onNext (o : Host.Outcome State Fault Refusal) (p : State → Bool) : Bool :=
  match o with
  | .next t => p t
  | .fault _ => false
  | .refused _ => false

theorem exists_of_onNext {o : Host.Outcome State Fault Refusal} {p : State → Bool} (h : onNext o p = true) :
    ∃ t, o = .next t ∧ p t = true := by
  cases o with
  | next t => exact ⟨t, rfl, h⟩
  | fault r => cases h
  | refused r => cases h

/-- The link after an event that answers one. -/
def linkAfter (l : Link) (ev : LinkEvent) : Option Link :=
  match l.step ev with
  | .next l' => some l'
  | .fault _ => none
  | .refused _ => none

theorem exists_of_linkAfter {l : Link} {ev : LinkEvent} (h : (linkAfter l ev).isSome = true) : ∃ l', l.step ev = .next l' := by
  unfold linkAfter at h
  split at h
  · exact ⟨_, by assumption⟩
  · cases h
  · cases h

/-- The block's elements, what was written to the transport, and the response, as a test sees them. -/
def shows (st : Block) (tx : List Wire) (r : Option Response) (t : State) : Bool :=
  decide (t.st = st) && decide (t.txLog = tx) && decide (t.response = r)

def okNone : Option Response := some ⟨.ok, .none⟩

/-! ### WellFormed refuses an ill-formed term of each kind (R68, R69, R66) -/

theorem test_wf_rxChunk_empty : (Instr.rxChunk 0#8 []).wellFormed = false := by decide
theorem test_wf_decode_seventeen : (Instr.decode 0#8 (ones 17)).wellFormed = false := by decide
theorem test_wf_reserved_defined_op : (Instr.reserved 0x03#8 0#8 []).wellFormed = false := by decide
theorem test_wf_frameCrcFailed_valid_crc : (Instr.frameCrcFailed frameE).wellFormed = false := by decide +kernel
theorem test_wf_frameData_bad_crc : (Instr.frameData frameE').wellFormed = false := by decide +kernel
theorem test_wf_frameData_retx : (Instr.frameData (decodeWire wireRetx)).wellFormed = false := by decide +kernel
theorem test_wf_frameData_ack : (Instr.frameData (decodeWire wireAck)).wellFormed = false := by decide +kernel

/-! ### Decoding: the words of R68 and R64, and the table's words -/

theorem test_decode_commands :
    decode (.command ⟨0x00#8, 0x07#8, [0xAA#8]⟩) = .rxChunk 0x07#8 [0xAA#8] ∧
    decode (.command ⟨0x01#8, 0x03#8, [0x01#8]⟩) = .sendPayload 0x03#8 [0x01#8] ∧
    decode (.command ⟨0x02#8, 0x09#8, [0x05#8]⟩) = .receiveNext 0x09#8 [0x05#8] ∧
    decode (.command ⟨0x03#8, 0x09#8, [0x05#8]⟩) = .crc8 0x09#8 [0x05#8] ∧
    decode (.command ⟨0x04#8, 0xFF#8, [0xAA#8]⟩) = .encode 0xFF#8 [0xAA#8] ∧
    decode (.command ⟨0x05#8, 0x02#8, ones 18⟩) = .decode 0x02#8 (ones 18) := by decide

theorem test_decode_reserved :
    decode (.command ⟨0x06#8, 0x01#8, [0x02#8]⟩) = .reserved 0x06#8 0x01#8 [0x02#8] ∧
    decode (.command ⟨0xFF#8, 0x00#8, []⟩) = .reserved 0xFF#8 0x00#8 [] ∧
    decode (.command ⟨0x00#8, 0x00#8, []⟩) = .reserved 0x00#8 0x00#8 [] ∧
    decode (.command ⟨0x05#8, 0x00#8, ones 17⟩) = .reserved 0x05#8 0x00#8 (ones 17) ∧
    decode (.command ⟨0x05#8, 0x00#8, ones 19⟩) = .reserved 0x05#8 0x00#8 (ones 19) := by decide

theorem test_decode_frames :
    decode (.frame wireRetx) = .frameRetx ∧ decode (.frame wireAck) = .frameAck ∧
    decode (.frame wireE') = .frameCrcFailed frameE' ∧ decode (.frame wireE) = .frameData frameE := by decide +kernel

/-- The 8-bit words of the table's command rows. -/
theorem test_table_commands :
    decodeTableWord 8 0x00 = some (.rxChunk 0#8 [0#8]) ∧ decodeTableWord 8 0x01 = some (.sendPayload 0#8 []) ∧
    decodeTableWord 8 0x02 = some (.receiveNext 0#8 []) ∧ decodeTableWord 8 0x03 = some (.crc8 0#8 []) ∧
    decodeTableWord 8 0x04 = some (.encode 0#8 []) ∧ decodeTableWord 8 0x05 = some (.decode 0#8 (List.replicate 18 0#8)) ∧
    decodeTableWord 8 0x06 = some (.reserved 0x06#8 0#8 []) := by decide

/-- The 144-bit words of the table's frame rows, the byte at offset 0 in bits 7..0. -/
theorem test_table_frames :
    decodeTableWord 144 0x3FFFFFFFFFFFFFFFFFFFFFFFFFFFFFFF1901 = some .frameRetx ∧
    decodeTableWord 144 0x27FFFFFFFFFFFFFFFFFFFFFFFFFFFFFF1501 = some .frameAck ∧
    decodeTableWord 144 0xF6FFFFFFFFFFFFFFFFFFFFFFFFFF03020103 = some (.frameData frameE) := by decide +kernel

/-- A command word placed after reset is run by the next step: ENCODE of an empty payload, V6 row 1. -/
theorem test_fetch_command : onNext (step (State.reset.withFetchWord 8 0x04)) (fun t =>
    decide (t.response = some ⟨.ok, .wire ⟨[0x00#8] ++ ones 16 ++ [0xFA#8], rfl⟩⟩)) = true := by decide +kernel

/-- A frame word placed after reset is processed by the next step: RETX_FRAME, V10 row 2. -/
theorem test_fetch_frame : onNext (step (State.reset.withFetchWord 144 0x3FFFFFFFFFFFFFFFFFFFFFFFFFFFFFFF1901))
    (shows Block.reset [wireAck] okNone) = true := by decide +kernel

/-! ### Checksum Unit (V3, V4, V5) -/

theorem test_checksum_single : checksum [] = 0x00#8 ∧ checksum [0x01#8] = 0x07#8 ∧ checksum [0x80#8] = 0x89#8 ∧
    checksum [0xFF#8] = 0xF3#8 ∧ checksum [0x01#8, 0x02#8] = 0x1B#8 ∧ checksum (ones 17) = 0x1B#8 := by decide +kernel

theorem test_crc8_digits : onNext (exec (.crc8 0#8 [0x31#8, 0x32#8, 0x33#8, 0x34#8, 0x35#8, 0x36#8, 0x37#8, 0x38#8, 0x39#8]) State.reset)
    (shows Block.reset [] (some ⟨.ok, .byte 0xF4#8⟩)) = true := by decide +kernel

theorem test_crc8_frame : onNext (exec (.crc8 0x55#8 ([0x03#8, 0x01#8, 0x02#8, 0x03#8] ++ ones 13)) faulted)
    (shows faulted.st [] (some ⟨.ok, .byte 0xF6#8⟩)) = true := by decide +kernel

/-! ### Frame Codec (V6, V7, V8) -/

theorem test_encode_full : onNext (exec (.encode 0x10#8 [0x00#8, 0x01#8, 0x02#8, 0x03#8, 0x04#8, 0x05#8, 0x06#8, 0x07#8, 0x08#8, 0x09#8,
      0x0A#8, 0x0B#8, 0x0C#8, 0x0D#8, 0x0E#8, 0x0F#8]) State.reset) (shows Block.reset [] (some ⟨.ok, .wire ⟨[0x10#8, 0x00#8, 0x01#8, 0x02#8,
      0x03#8, 0x04#8, 0x05#8, 0x06#8, 0x07#8, 0x08#8, 0x09#8, 0x0A#8, 0x0B#8, 0x0C#8, 0x0D#8, 0x0E#8, 0x0F#8, 0xA1#8], rfl⟩⟩)) = true := by
  decide +kernel

theorem test_encode_seventeen : onNext (exec (.encode 0#8 (ones 17)) State.reset)
    (shows Block.reset [] (some ⟨.oversizedPayload, .none⟩)) = true := by decide +kernel

/-- The recognizers ignore the crc, the class does not: V7 row 3, ACK with its crc corrupted. -/
theorem test_decode_bad_ack : onNext (exec (.decode 0#8 ([0x01#8, 0x15#8] ++ ones 15 ++ [0x28#8])) State.reset)
    (shows Block.reset [] (some ⟨.ok, .decoded ⟨0x01#8, ⟨[0x15#8] ++ ones 15, rfl⟩, 0x28#8⟩ false true false .crcFailed⟩)) = true := by
  decide +kernel

/-- V7 row 7: one trailing byte that is no 0xFF makes a data frame. -/
theorem test_decode_near_retx : onNext (exec (.decode 0#8 ([0x01#8, 0x19#8, 0xFE#8] ++ ones 14 ++ [0x8A#8])) State.reset)
    (shows Block.reset [] (some ⟨.ok, .decoded ⟨0x01#8, ⟨[0x19#8, 0xFE#8] ++ ones 14, rfl⟩, 0x8A#8⟩ true false false .data⟩)) = true := by
  decide +kernel

/-- V14, in a faulted block. -/
theorem test_reserved : onNext (exec (.reserved 0xFF#8 0#8 []) faulted)
    (shows faulted.st [] (some ⟨.reservedCommand, .none⟩)) = true := by decide +kernel

/-! ### Receive Reassembler (V9, P7, P8) -/

/-- P7: E is accepted, H overflows the queue, and the command responds BLOCK_FAULTED. -/
theorem test_rxChunk_overflow : onNext (exec (.rxChunk 0#8 (wireE.list ++ wireH.list)) (stateOf (boundedQueue 1) Block.reset))
    (shows { Block.reset with pending := [frameE], fault := .queueOverflow } [wireAck] (some ⟨.blockFaulted, .none⟩)) = true := by
  decide +kernel

/-- V9 row 8: nothing is appended. -/
theorem test_rxChunk_capacity : onNext (exec (.rxChunk 0#8 (wireE.list.drop 10 ++ [0x00#8]))
      (stateOf (boundedAcc 18) { Block.reset with acc := wireE.list.take 10 }))
    (shows { Block.reset with acc := wireE.list.take 10, fault := .accOverflow } [] (some ⟨.blockFaulted, .none⟩)) = true := by
  decide +kernel

/-! ### Link Controller (V10, V11, V13) -/

theorem test_frameRetx : onNext (exec .frameRetx (stateOf (boundedRetries 2) { Block.reset with lastSent := wireE, retxCount := 1 }))
    (shows { Block.reset with lastSent := wireE } [wireE] none) = true := by decide +kernel

theorem test_frameAck : onNext (exec .frameAck (stateOf (boundedRetries 1) { Block.reset with retxCount := 1 }))
    (shows Block.reset [] none) = true := by decide +kernel

theorem test_frameCrcFailed : onNext (exec (.frameCrcFailed frameE') (stateOf (boundedRetries 1) Block.reset))
    (shows { Block.reset with lastSent := wireRetx, retxCount := 1 } [wireRetx] none) = true := by decide +kernel

theorem test_frameCrcFailed_limit : onNext (exec (.frameCrcFailed frameE') (stateOf (boundedRetries 1) { Block.reset with retxCount := 1 }))
    (shows { Block.reset with retxCount := 1, fault := .linkError } [] none) = true := by decide +kernel

theorem test_frameData : onNext (exec (.frameData frameE) (stateOf Params.default { Block.reset with pending := [frameH], lastSent := wireH }))
    (shows { Block.reset with pending := [frameH, frameE] } [wireAck] none) = true := by decide +kernel

theorem test_sendPayload : onNext (exec (.sendPayload 0x03#8 [0x01#8, 0x02#8, 0x03#8]) State.reset)
    (shows { Block.reset with lastSent := wireE } [wireE] okNone) = true := by decide +kernel

/-- R160: the fault is tested before the size. -/
theorem test_sendPayload_order : onNext (exec (.sendPayload 0#8 (ones 17)) faulted)
    (shows faulted.st [] (some ⟨.blockFaulted, .none⟩)) = true := by decide +kernel

/-! ### The queue (V12) -/

theorem test_receiveNext : onNext (exec (.receiveNext 0#8 []) (stateOf Params.default { Block.reset with pending := [frameE, frameH] }))
    (shows { Block.reset with pending := [frameH] } [] (some ⟨.ok, .frame frameE⟩)) = true := by decide +kernel

/-- The held command stays outstanding. -/
theorem test_receiveNext_holds :
    onNext (step (withPort [⟨.consumer 0, recvCommand⟩] [.agent (.consumer 0)] State.reset)) (fun t =>
      decide (t = withPort [⟨.consumer 0, recvCommand⟩] [] State.reset)) = true := by decide +kernel

/-- R143: a consumer that waits issues nothing more, another does. -/
theorem test_issue_waiting : (withPort [⟨.consumer 0, recvCommand⟩] [] State.reset).issue (.consumer 0) recvCommand =
      withPort [⟨.consumer 0, recvCommand⟩] [] State.reset ∧
    ((withPort [⟨.consumer 0, recvCommand⟩] [] State.reset).issue (.consumer 1) recvCommand).requests =
      [⟨.consumer 0, recvCommand⟩, ⟨.consumer 1, recvCommand⟩] := by decide +kernel

/-! ### Witnesses: a concrete state and operands that meet each statement's hypotheses, clause by clause at the edges of its ranges -/

/-- A block with every bound reached: 17 bytes accumulated, the queue full, the count at its limit. -/
def brim : State :=
  { stateOf { Params.default with pendingDepth := some 1, retxLimit := some 2 }
      { acc := wireE.list.take 17, lastSent := wireRetx, pending := [frameH], retxCount := 2, fault := .none } with txLog := [wireAck, wireRetx] }

/-- The same in ONE_PER_FEED mode, with a full accumulator. -/
def brimFeed : State :=
  { brim with st := { brim.st with acc := wireE.list }, params := { brim.params with reassemblyMode := .onePerFeed, accCapacity := some 18 } }

theorem frameH_accepted : isAccepted frameH = true := by decide +kernel
theorem retx_valid : crcOk (decodeWire wireRetx) = true := by decide +kernel
theorem brim_tx_valid : ∀ w ∈ [wireAck, wireRetx], crcOk (decodeWire w) = true := by decide +kernel

theorem witness_ResetSetsEveryElement : ∃ (s : State) (rest : List Turn), s.schedule = .reset :: rest ∧ s.held (.consumer 0) = true :=
  ⟨withPort [⟨.consumer 0, recvCommand⟩] [.reset] faulted, [], by decide⟩

theorem brim_inv (requests : List Request) (schedule : List Turn)
    (h : requests.Pairwise (fun r later => r.command.op = opReceiveNext → later.agent ≠ r.agent)) :
    (withPort requests schedule brim).Inv where
  params := rfl
  accDrainAll _ := by exact Nat.le_refl 17
  accOnePerFeed n h := by cases h
  depth d h := by cases h; exact Nat.le_refl 1
  countUnlimited h := by cases h
  countLimited m h := by cases h; exact Nat.le_refl 2
  pendingAccepted f h := by cases List.mem_singleton.mp h; exact frameH_accepted
  lastSentValid := retx_valid
  txValid := brim_tx_valid
  queueFault h := by cases h
  accFault h := by cases h
  linkFault h := by cases h
  oneReceive := h

/-- In ONE_PER_FEED mode, with each fault. -/
theorem brimFeed_inv (code : FaultCode) : State.Inv { brimFeed with st := { brimFeed.st with fault := code } } where
  params := rfl
  accDrainAll h := by cases h
  accOnePerFeed n _ h := by cases h; exact Nat.le_refl 18
  depth d h := by cases h; exact Nat.le_refl 1
  countUnlimited h := by cases h
  countLimited m h := by cases h; exact Nat.le_refl 2
  pendingAccepted f h := by cases List.mem_singleton.mp h; exact frameH_accepted
  lastSentValid := retx_valid
  txValid := brim_tx_valid
  queueFault _ h := by cases h
  accFault _ := ⟨rfl, fun h => by cases h⟩
  linkFault _ h := by cases h
  oneReceive := .nil

/-- The invariant's edge, and the step that delivers the 18th byte of a corrupted frame there (it takes LINK_ERROR). -/
theorem witness_EveryStepKeepsInvariant : ∃ s t : State, s.Inv ∧ step s = .next t ∧ (t.st.fault == .linkError) = true := by
  obtain ⟨t, h, ht⟩ := exists_of_onNext (o := step (withPort [⟨.transport, rxCommand [0xF7#8]⟩] [.agent .transport] brim))
    (p := fun t => t.st.fault == .linkError) (by decide +kernel)
  exact ⟨_, t, brim_inv _ _ (by decide), h, ht⟩

theorem witness_step_next : ∃ s t : State, step s = .next t ∧ (t.txLog == [wireE]) = true :=
  ⟨_, exists_of_onNext (o := step (withPort [⟨.consumer 0, ⟨0x01#8, 0x03#8, [0x01#8, 0x02#8, 0x03#8]⟩⟩] [.agent (.consumer 0)] State.reset))
    (p := fun t => t.txLog == [wireE]) (by decide +kernel)⟩

theorem witness_LastSentIsTheMostRecentWrite : ∃ s t u : State,
    exec .frameAck s = .next t ∧ exec .frameRetx s = .next u ∧ u.txLog = [wireAck, wireRetx, wireRetx] :=
  ⟨brim, _, _, rfl, rfl, rfl⟩

theorem witness_StepRunsTheDecodedCommand : ∃ (s : State) (a : Agent) (rest : List Turn) (c d : Command) (others : List Request),
    s.schedule = .agent a :: rest ∧ takeRequest a s.requests = some (c, others) ∧ others = [⟨.consumer 1, d⟩] ∧
    onNext (exec (decode (.command c)) { s with schedule := rest }) (fun t => t.response == none) = true ∧
    onNext (exec (decode (.command d)) { s with schedule := rest }) (fun t => t.response == some ⟨.ok, .byte 0#8⟩) = true :=
  ⟨withPort [⟨.consumer 0, recvCommand⟩, ⟨.consumer 1, ⟨0x03#8, 0#8, []⟩⟩] [.agent (.consumer 0)] State.reset, .consumer 0, [],
    recvCommand, ⟨0x03#8, 0#8, []⟩, _, rfl, rfl, rfl, by decide +kernel, by decide +kernel⟩

theorem witness_NoCommandNoEffect : State.reset.schedule = [] ∧ ∃ s : State, s.schedule = [.agent .test] ∧ ∀ r ∈ s.requests, r.agent ≠ .test :=
  ⟨rfl, withPort [⟨.transport, rxCommand [0#8]⟩] [.agent .test] State.reset, rfl, by decide⟩

theorem witness_AgentsKeepTheirIssueOrder :
    takeRequest .test [⟨.transport, rxCommand [0#8]⟩, ⟨.test, ⟨0x03#8, 0#8, []⟩⟩, ⟨.test, ⟨0x04#8, 0#8, []⟩⟩] =
      some (⟨0x03#8, 0#8, []⟩, [⟨.transport, rxCommand [0#8]⟩, ⟨.test, ⟨0x04#8, 0#8, []⟩⟩]) := by decide

theorem witness_DecodeEncodeIsIdentity :
    ∀ i ∈ [Instr.rxChunk 0#8 [0#8], .sendPayload 0xFF#8 (ones 17), .receiveNext 0#8 [], .crc8 0#8 [], .encode 0#8 [],
      .decode 0#8 (ones 18), .reserved 0x06#8 0#8 [], .reserved 0x00#8 0#8 [], .reserved 0x05#8 0#8 (ones 17), .frameRetx, .frameAck,
      .frameCrcFailed frameE', .frameData frameE], i.wellFormed = true := by decide +kernel

theorem witness_FramesFallIntoFourClasses :
    checksum (wireE'.list.take 17) ≠ byteAt wireE' 17 ∧
    (checksum (wireRetx.list.take 17) = byteAt wireRetx 17 ∧ wireRetx = retxFrame) ∧
    (checksum (wireAck.list.take 17) = byteAt wireAck 17 ∧ wireAck = ackFrame) ∧
    (checksum (wireE.list.take 17) = byteAt wireE 17 ∧ wireE ≠ retxFrame ∧ wireE ≠ ackFrame) := by decide +kernel

theorem witness_ChecksumIsLinear : ([0x01#8, 0x02#8] : List Byte).length = ([0x80#8, 0xFF#8] : List Byte).length := rfl

/-- The statement's hypotheses, and its conclusion at the first and the last offset. -/
theorem witness_EverySingleByteErrorIsDetected : crcOk (decodeWire wireE) = true ∧ (0x01#8 : Byte) ≠ 0#8 ∧
    classify (withError wireE 0 0x80#8) = .crcFailed ∧ classify (withError wireE 17 0x01#8) = .crcFailed := by decide +kernel

/-- The sizes at both sides of the payload limit: EncodePadsAndChecks, RoundTripAndPadding, EncodeResponds, SendPayloadTransmits,
SentFrameIsReplayedUnchanged. -/
theorem witness_payload_sizes : (ones 16).length ≤ 16 ∧ 16 < (ones 17).length ∧ State.reset.st.fault = .none ∧ faulted.st.fault ≠ .none := by
  decide

theorem witness_DecodeResponds : (ones 18).length = 18 ∧ (ones 17).length ≠ 18 ∧ (ones 19).length ≠ 18 := by decide

/-- From 17 bytes accumulated: one byte completes a frame without a fault, and 19 more bytes fault on the second frame. -/
theorem witness_RxChunkDrainsEveryFrame :
    ∃ s : State, s.st.fault = .none ∧ s.params.reassemblyMode = .drainAll ∧ s.st.acc.length = 17 ∧
      (runFrames (streamFrames (s.st.acc ++ [0xF6#8])) { s with st := { s.st with acc := [] } }).st.fault = .none ∧
      (runFrames (streamFrames (s.st.acc ++ (0xF6#8 :: wireH.list))) { s with st := { s.st with acc := [] } }).st.fault ≠ .none :=
  ⟨stateOf (boundedQueue 1) { Block.reset with acc := wireE.list.take 17 }, rfl, rfl, rfl, by decide +kernel, by decide +kernel⟩

/-- ACC_CAPACITY 18 with 17 bytes: two bytes exceed it, one fills it exactly; with 16 bytes one completes no frame. -/
theorem witness_RxChunkOnePerFeed :
    ∃ s u : State, s.st.fault = .none ∧ s.params.reassemblyMode = .onePerFeed ∧ s.params.accCapacity = some 18 ∧ s.st.acc.length = 17 ∧
      18 < s.st.acc.length + ([0#8, 0#8] : List Byte).length ∧ s.st.acc.length + ([0#8] : List Byte).length ≤ 18 ∧
      18 ≤ s.st.acc.length + ([0#8] : List Byte).length ∧
      u.st.fault = .none ∧ u.params = s.params ∧ u.st.acc.length + ([0#8] : List Byte).length < 18 :=
  ⟨stateOf (boundedAcc 18) { Block.reset with acc := ones 17 }, stateOf (boundedAcc 18) { Block.reset with acc := ones 16 }, by decide⟩

/-- ChunkingDoesNotMatter and ByteSerialDeliveryHidesTheMode, with 17 bytes accumulated. -/
theorem witness_ChunkingDoesNotMatter : ∃ s t : State, s.params.reassemblyMode = .drainAll ∧ s.st.acc.length = 17 ∧
    s.params.inDomain = true ∧ exec (.rxChunk 0#8 [0xF6#8]) s = .next t ∧ (t.st.fault == .none) = true := by
  obtain ⟨t, h, ht⟩ := exists_of_onNext (o := exec (.rxChunk 0#8 [0xF6#8])
    (stateOf (boundedQueue 1) { Block.reset with acc := wireE.list.take 17 })) (p := fun t => t.st.fault == .none) (by decide +kernel)
  exact ⟨_, t, rfl, rfl, rfl, h, ht⟩

theorem witness_RxChunkWithoutAFrameOnlyAppends : ∃ s : State, s.st.fault = .none ∧ s.params.reassemblyMode = .drainAll ∧
    s.st.acc.length + ([0#8] : List Byte).length = 17 :=
  ⟨stateOf Params.default { Block.reset with acc := ones 16 }, by decide⟩

/-- SplitFrameIsTheSameFrame at the first and the last cut, in both modes. -/
theorem witness_SplitFrameIsTheSameFrame : ∀ p ∈ [Params.default, boundedAcc 18],
    (State.resetWith p).st.acc = [] ∧ (State.resetWith p).st.fault = .none ∧ (State.resetWith p).params.inDomain = true ∧
    (wireE.list.take 1).length = 1 ∧ (wireE.list.drop 17).length = 1 := by decide

theorem witness_CrcFailureRequestsARetransmission :
    State.reset.params.retxLimit = none ∧
    (∃ s : State, s.params.retxLimit = some 2 ∧ s.st.retxCount = 1) ∧
    (∃ s : State, s.params.retxLimit = some 2 ∧ s.st.retxCount = 2 ∧ s.st.fault = .none) :=
  ⟨rfl, ⟨stateOf (boundedRetries 2) { Block.reset with retxCount := 1 }, by decide⟩, ⟨brim, by decide⟩⟩

theorem witness_DataIsQueuedAndAcknowledged :
    State.reset.params.pendingDepth = none ∧
    (∃ s : State, s.params.pendingDepth = some 2 ∧ s.st.pending.length = 1) ∧
    (∃ s : State, s.params.pendingDepth = some s.st.pending.length ∧ s.st.fault = .none) :=
  ⟨rfl, ⟨stateOf (boundedQueue 2) { Block.reset with pending := [frameE] }, by decide⟩, ⟨brim, by decide⟩⟩

theorem witness_ReceiveNextPopsOrHolds : brim.st.pending = [frameH] ∧ State.reset.st.pending = [] := ⟨rfl, rfl⟩

/-- PendingIsAFifo: a push, and a pop. -/
theorem witness_PendingIsAFifo : ∃ s t u : State, exec (.frameData frameE) s = .next t ∧ exec (.receiveNext 0#8 []) t = .next u ∧
    u.st.pending = [frameE] :=
  ⟨stateOf Params.default { Block.reset with pending := [frameH] }, _, _, rfl, rfl, rfl⟩

theorem witness_HeldConsumerWaitsWithoutBlocking : ∃ s : State, s.held (.consumer 0) = true ∧ s.schedule = [.agent (.consumer 0)] :=
  ⟨withPort [⟨.consumer 0, recvCommand⟩, ⟨.transport, rxCommand [0#8]⟩] [.agent (.consumer 0)] State.reset, by decide⟩

/-- The push that releases a held consumer: E arrives. -/
theorem witness_OnlyAPushLiftsAHold : ∃ s t : State, s.held (.consumer 0) = true ∧ step s = .next t ∧
    (t.held (.consumer 0) == false) = true := by
  obtain ⟨t, h, ht⟩ := exists_of_onNext (o := step (withPort [⟨.consumer 0, recvCommand⟩, ⟨.transport, rxCommand wireE.list⟩]
    [.agent .transport] State.reset)) (p := fun t => t.held (.consumer 0) == false) (by decide +kernel)
  exact ⟨_, t, by decide, h, ht⟩

/-- FirstFaultStaysUntilReset and FaultedBlockRefusesLinkTraffic: a faulted block, a command it runs, and a reset turn. -/
theorem witness_FirstFaultStaysUntilReset : ∃ s t u v : State, s.st.fault ≠ .none ∧ exec (.crc8 0#8 []) s = .next t ∧
    step s = .next u ∧ u.st.fault = .none ∧ step t = .next v ∧ ([0#8] : List Byte) ≠ [] :=
  ⟨withPort [] [.reset] faulted, _, _, _, by decide, rfl, rfl, rfl, rfl, by decide⟩

theorem witness_DefaultParametersNeverFault : ∃ s t : State, s.params.pendingDepth = none ∧ s.params.accCapacity = none ∧
    s.params.retxLimit = none ∧ s.st.fault = .none ∧ step s = .next t ∧ (t.txLog == [wireRetx]) = true := by
  obtain ⟨t, h, ht⟩ := exists_of_onNext (o := step (withPort [⟨.transport, rxCommand wireE'.list⟩] [.agent .transport] State.reset))
    (p := fun t => t.txLog == [wireRetx]) (by decide +kernel)
  exact ⟨_, t, rfl, rfl, rfl, rfl, h, ht⟩

/-- The livelock of P4 after its two corruptions. -/
def livelock : Link :=
  { a := { stateOf Params.default { Block.reset with lastSent := wireRetx } with txLog := [wireE, wireRetx] }
    b := { stateOf Params.default { Block.reset with lastSent := wireRetx } with txLog := [wireRetx] }
    takenA := 1
    takenB := 1 }

theorem wireRetx_eq : wireRetx = retxFrame := by decide +kernel

theorem witness_RetxPingPongNeverEnds : livelock.PingPong where
  quietA := ⟨rfl, rfl, rfl, rfl, rfl⟩
  quietB := ⟨rfl, rfl, rfl, rfl, rfl⟩
  lastA := wireRetx_eq
  lastB := wireRetx_eq
  wireA := congrArg (fun w => [w]) wireRetx_eq
  wireB := rfl

/-- Two blocks after reset, B with its queue one short of full and its retries one short of the limit. -/
def idleLink : Link :=
  { a := State.reset
    b := stateOf { Params.default with pendingDepth := some 2, retxLimit := some 2 } { Block.reset with pending := [frameH], retxCount := 1 }
    takenA := 0
    takenB := 0 }

theorem witness_idle : idleLink.Idle where
  quietA := ⟨rfl, rfl, rfl, rfl, rfl⟩
  quietB := ⟨rfl, rfl, rfl, rfl, rfl⟩
  wireA := rfl
  wireB := rfl

theorem witness_CorruptedFrameIsRecovered : encodeFrame 0x03#8 [0x01#8, 0x02#8, 0x03#8] = some wireE ∧ wireE ≠ ackFrame ∧ wireE ≠ retxFrame ∧
    (0x01#8 : Byte) ≠ 0#8 ∧ idleLink.b.params.retxLimit ≠ some idleLink.b.st.retxCount ∧
    idleLink.b.params.pendingDepth ≠ some idleLink.b.st.pending.length := by decide +kernel

/-- InvariantHoldsAtReset: parameters at the edge of R10's domains. -/
theorem witness_InvariantHoldsAtReset : Params.inDomain ⟨.onePerFeed, some 18, some 1, some 1⟩ = true := by decide

/-- AtMostOneReceivePerAgent: consumer 0 waits, consumer 1 has another command outstanding. -/
theorem witness_AtMostOneReceivePerAgent : ∃ s : State, s.Inv ∧
    (∃ r ∈ s.requests, r.agent = .consumer 0 ∧ r.command.op = 0x02#8) ∧ ∀ r ∈ s.requests, r.agent = .consumer 1 → r.command.op ≠ 0x02#8 :=
  ⟨_, brim_inv [⟨.consumer 0, recvCommand⟩, ⟨.consumer 1, ⟨0x01#8, 0#8, []⟩⟩] [] (by decide), by decide, by decide⟩

/-- LinkEventsKeepTheInvariant: two ends at their bounds, a write of A on the wire, and the event that delivers it. -/
theorem witness_LinkEventsKeepTheInvariant : ∃ l l' : Link, l.Inv ∧ l.onWire .a = [wireRetx] ∧ l.step (.wire .a) = .next l' := by
  obtain ⟨l', h⟩ := exists_of_linkAfter (l := ⟨withPort [] [] brim, withPort [⟨.consumer 0, recvCommand⟩] [] brim, 1, 2⟩) (ev := .wire .a)
    (by decide +kernel)
  exact ⟨_, l', ⟨brim_inv _ _ .nil, brim_inv _ _ (by decide), by decide, by decide⟩, rfl, h⟩

/-- A link whose end B has a held consumer with a command of another behind it, and `E` on the wire to it. -/
def heldLink (pending : List Frame) : Link :=
  { a := { State.reset with txLog := [wireE] }
    b := withPort [⟨.consumer 0, recvCommand⟩, ⟨.consumer 1, recvCommand⟩] [] (stateOf (boundedQueue 1) { Block.reset with pending := pending })
    takenA := 0
    takenB := 0 }

theorem witness_HeldReceiveCompletesOnItsTurn :
    takeRequest (.consumer 1) ((heldLink [frameE]).block .b).requests = some (recvCommand, [⟨.consumer 0, recvCommand⟩]) ∧
    recvCommand.op = 0x02#8 ∧ ((heldLink [frameE]).block .b).st.pending = [frameE] := ⟨rfl, rfl, rfl⟩

theorem witness_HeldConsumerReceivesOverTheLink :
    takeRequest (.consumer 0) (heldLink []).b.requests = some (recvCommand, [⟨.consumer 1, recvCommand⟩]) ∧
    (∀ r ∈ (heldLink []).b.requests, r.agent ≠ .transport) ∧ (heldLink []).b.st.pending = [] ∧ (heldLink []).b.st.acc = [] ∧
    (heldLink []).b.st.fault = .none ∧ (heldLink []).b.params.inDomain = true ∧ (heldLink []).onWire .a = [wireE] ∧
    decode (.frame wireE) = .frameData (decodeWire wireE) := by decide +kernel

theorem witness_PayloadSpellingAControlFrameIsLost : encodeFrame 0x01#8 [0x15#8] = some ackFrame ∧ encodeFrame 0x01#8 [0x15#8, 0xFF#8] = some ackFrame ∧
    encodeFrame 0x01#8 [0x19#8] = some retxFrame := by decide +kernel

end Sys2Proof.Tests
end

section
/-! PROOFS. `st.lastSent` follows the transmit stream (10_state.md R22): each shared operation either writes nothing and leaves it, or ends the
stream with it, and so does every instruction. -/

namespace Sys2Proof.Machine

/-- R22 between a state and a later one: nothing was written and `st.lastSent` is as it was, or the newest write of the stream is
`st.lastSent`. -/
def LastSentFollows (s t : State) : Prop :=
  (t.txLog = s.txLog ∧ t.st.lastSent = s.st.lastSent) ∨
  (s.txLog.length < t.txLog.length ∧ t.txLog.getLast? = some t.st.lastSent)

variable {s t u : State}

theorem lastSentFollows_refl (s : State) : LastSentFollows s s := .inl ⟨rfl, rfl⟩

theorem LastSentFollows.length_le (h : LastSentFollows s t) : s.txLog.length ≤ t.txLog.length := by
  rcases h with ⟨htx, -⟩ | ⟨hlt, -⟩
  · rw [htx]
  · exact hlt.le

/-- Only the stream and `st.lastSent` matter. -/
theorem LastSentFollows.of_eq (h : LastSentFollows s t) (htx : u.txLog = t.txLog) (hlast : u.st.lastSent = t.st.lastSent) :
    LastSentFollows s u := by
  rw [LastSentFollows, htx, hlast]; exact h

/-- A write that leaves `st.lastSent` equal to what was written, whatever stood there before. -/
theorem LastSentFollows.of_write (h : LastSentFollows s t) (htx : u.txLog = t.txLog ++ [u.st.lastSent]) : LastSentFollows s u := by
  have hle := h.length_le
  refine .inr ⟨?_, ?_⟩
  · rw [htx, List.length_append, List.length_singleton]; omega
  · rw [htx, List.getLast?_concat]

/-! ### The shared operations -/

theorem lastSentFollows_send (x : Wire) (h : LastSentFollows s t) : LastSentFollows s (send x t) := h.of_write rfl

theorem lastSentFollows_replay (h : LastSentFollows s t) : LastSentFollows s (replay t) := h.of_write rfl

theorem lastSentFollows_raiseFault (c : FaultCode) (h : LastSentFollows s t) : LastSentFollows s (raiseFault c t) := by
  rcases raiseFault_cases c t with e | ⟨-, e⟩ <;> rw [e]
  · exact h.of_eq rfl rfl
  · exact h

theorem lastSentFollows_onCrcFailed (h : LastSentFollows s t) : LastSentFollows s (onCrcFailed t) := by
  rcases onCrcFailed_cases t with ⟨-, e⟩ | ⟨_, -, -, e⟩ | ⟨-, e⟩ <;> rw [e]
  · exact lastSentFollows_send _ h
  · exact lastSentFollows_send _ (h.of_eq rfl rfl)
  · exact lastSentFollows_raiseFault _ h

theorem lastSentFollows_accept (f : Frame) (h : LastSentFollows s t) : LastSentFollows s (accept f t) := by
  rcases accept_cases f t with ⟨-, e⟩ | ⟨-, e⟩ <;> rw [e]
  · exact lastSentFollows_send _ (h.of_eq rfl rfl)
  · exact lastSentFollows_raiseFault _ h

/-! ### The instructions -/

/-- Every instruction, FRAME_DATA of a frame that no decoding gives included (log 13). -/
theorem exec_lastSentFollows (i : Instr) (s t : State) (he : exec i s = .next t) : LastSentFollows s t := by
  by_cases hi : ∀ f, i = .frameData f → isAccepted f = true
  · exact exec_induction (P := LastSentFollows s)
      (hacc := fun _ _ h => h.of_eq rfl rfl)
      (hover := fun _ _ _ => lastSentFollows_raiseFault _)
      (hcount := fun _ h => h.of_eq rfl rfl)
      (hcrc := fun _ => lastSentFollows_onCrcFailed)
      (hreplay := fun _ => lastSentFollows_replay)
      (haccept := fun f _ _ => lastSentFollows_accept f)
      (hsend := fun _ _ b _ _ => lastSentFollows_send b)
      (hpop := fun _ _ _ _ h => h.of_eq rfl rfl)
      (hresp := fun _ _ h => h.of_eq rfl rfl)
      i hi s t (lastSentFollows_refl s) he
  · push Not at hi
    obtain ⟨f, rfl, -⟩ := hi
    cases he
    exact lastSentFollows_accept f ((lastSentFollows_refl s).of_eq rfl rfl)

/-- ACK_FRAME byte by byte (30_encoding.md R64): what `st.lastSent` is after reset. -/
theorem ackFrame_list : ackFrame.list = [0x01#8, 0x15#8] ++ List.replicate 15 0xFF#8 ++ [0x27#8] := by decide +kernel

/-- Settles O7: each shared operation keeps `LastSentFollows`, so every instruction has it of its own start state; FRAME_RETX and the
reset value are read off their definitions. -/
theorem lastSentIsTheMostRecentWrite : Obligations.LastSentIsTheMostRecentWrite :=
  ⟨exec_lastSentFollows, fun _ => rfl, ackFrame_list⟩

end Sys2Proof.Machine
end

section
/-! PROOFS. The reserved forms and the ignored operands of the command port (30_encoding.md R69, R70). -/

namespace Sys2Proof.Machine

/-- R69's three kinds as the encoding tables number them. -/
theorem reservedForm_iff (op : Byte) (bytes : List Byte) :
    reservedForm op bytes = true ↔
      0x06 ≤ op.toNat ∨ (op = 0x00#8 ∧ bytes.length = 0) ∨ (op = 0x05#8 ∧ bytes.length ≠ 18) := by
  have hop : lastOp < op ↔ 0x06 ≤ op.toNat := BitVec.lt_def
  simp [reservedForm, hop, opRxChunk, opDecode, or_assoc]

/-- Outside the reserved forms the command decoder reaches one of R68's six rows, none of which is RESERVED. -/
theorem decodeCommand_eq_reserved_iff (c : Command) :
    decodeCommand c = .reserved c.op c.length c.bytes ↔ reservedForm c.op c.bytes = true := by
  unfold decodeCommand
  constructor
  · intro h
    by_contra hr
    rw [if_neg hr] at h
    split_ifs at h
  · exact fun hr => if_pos hr

/-- RESERVED reads nothing and writes the response only, in a faulted block too (60_exceptions.md R159). -/
theorem exec_reserved (op length : Byte) (bytes : List Byte) (s : State) :
    exec (.reserved op length bytes) s = .next { s with response := some ⟨.reservedCommand, .none⟩ } := rfl

/-- Settles O14: the decoder's test for RESERVED is `reservedForm`, which is R69's list. -/
theorem reservedFormsAreRefused : Obligations.ReservedFormsAreRefused := fun c s =>
  ⟨(reservedForm_iff c.op c.bytes).symm.trans (decodeCommand_eq_reserved_iff c).symm, exec_reserved c.op c.length c.bytes s⟩

/-- Settles O17: the meanings of these four commands do not mention the operands that R70 says are ignored, so both sides unfold to
the same term. -/
theorem unusedOperandsAreIgnored : Obligations.UnusedOperandsAreIgnored := fun _ _ _ _ _ => ⟨rfl, rfl, rfl, rfl⟩

end Sys2Proof.Machine
end

section
/-! PROOFS. The Checksum Unit's byte step and its sum on numbers (40_checksum.md R81, R82), and the CRC8 command (R84). -/

namespace Sys2Proof.Machine

/-- One bit position: the top bit is set where the number is 128 or more, and a left shift doubles modulo 256. -/
theorem toNat_crcBit (r : Byte) : (crcBit r).toNat = bitStep r.toNat := by
  have hshift : (r <<< 1).toNat = 2 * r.toNat % 256 := by
    rw [BitVec.toNat_shiftLeft, Nat.shiftLeft_eq, pow_one, Nat.mul_comm]
  have hmsb : r.msb = true ↔ 128 ≤ r.toNat := BitVec.msb_eq_true_iff_two_mul_ge.trans (by omega)
  unfold crcBit bitStep
  by_cases htop : 128 ≤ r.toNat
  · rw [if_pos (hmsb.mpr htop), if_pos htop, BitVec.toNat_xor, hshift]
    rfl
  · rw [if_neg (mt hmsb.mp htop), if_neg htop, hshift]

theorem toNat_crcBits (k : Nat) (r : Byte) : (crcBits k r).toNat = bitStep^[k] r.toNat := by
  induction k generalizing r with
  | zero => rfl
  | succ k ih => rw [crcBits, ih, toNat_crcBit, Function.iterate_succ_apply]

theorem toNat_crc8Step (r b : Byte) : (crc8Step r b).toNat = bitStep^[8] (r.toNat ^^^ b.toNat) := by
  rw [crc8Step, toNat_crcBits, BitVec.toNat_xor]

/-- CRC8 reads no state and writes the response only. -/
theorem exec_crc8 (length : Byte) (bytes : List Byte) (s : State) :
    exec (.crc8 length bytes) s = .next { s with response := some ⟨.ok, .byte (checksum bytes)⟩ } := rfl

/-- Settles O18: the byte step is eight bit positions of the exclusive-or, each of which is `bitStep` on numbers; the sum is a left fold
from 0, so the last byte is the last step. -/
theorem checksumFollowsTheBitProcedure : Obligations.ChecksumFollowsTheBitProcedure :=
  ⟨toNat_crc8Step, rfl, fun s b => checksum_append s [b]⟩

/-- Settles O22: CRC8's meaning completes at once with the checksum, and completing writes `response` alone. -/
theorem crc8Responds : Obligations.Crc8Responds := exec_crc8

end Sys2Proof.Machine
end

section
/-! PROOFS. The frame codec's bytes (41_frame_codec.md R91 to R93), and the ENCODE and DECODE commands (R100, R101). -/

namespace Sys2Proof.Machine

variable {length : Byte} {p bytes : List Byte} {s : State}

theorem pad_list (h : p.length ≤ 16) : (pad p h).list = p ++ List.replicate (16 - p.length) 0xFF#8 := rfl

/-- The bytes of an encoded frame, with the checksum over the ones before it. -/
theorem serialize_makeFrame_list (length : Byte) (data : Data) :
    (serialize (makeFrame length data)).list = [length] ++ data.list ++ [checksum ([length] ++ data.list)] :=
  serialize_list (makeFrame length data)

/-- Settles O24: `encodeFrame` serializes a locally made frame of the padded payload, or builds nothing above 16 bytes; the control frames
are that frame of one payload byte. -/
theorem encodePadsAndChecks : Obligations.EncodePadsAndChecks :=
  ⟨fun _ _ => ⟨fun h => ⟨pad_list h, rfl, _, encodeFrame_of_le h, serialize_makeFrame_list _ _⟩, encodeFrame_of_gt⟩,
    encodeFrame_of_le (by decide), encodeFrame_of_le (by decide)⟩

/-- ENCODE of a payload that fits. -/
theorem exec_encode_of_le (h : p.length ≤ 16) :
    exec (.encode length p) s = .next { s with response := some ⟨.ok, .wire (serialize (makeFrame length (pad p h)))⟩ } := by
  show execEncode length p s = _
  rw [execEncode, encodeFrame_of_le h]
  rfl

/-- ENCODE of an oversized payload. -/
theorem exec_encode_of_gt (h : 16 < p.length) :
    exec (.encode length p) s = .next { s with response := some ⟨.oversizedPayload, .none⟩ } := by
  show execEncode length p s = _
  rw [execEncode, encodeFrame_of_gt h]
  rfl

/-- Settles O27: the frame ENCODE responds with has the bytes of a serialized local frame, its data field being the padded payload. -/
theorem encodeResponds : Obligations.EncodeResponds := by
  refine fun length p s => ⟨fun h => ⟨_, ?_, exec_encode_of_le h⟩, exec_encode_of_gt⟩
  rw [serialize_makeFrame_list, pad_list]
  simp only [List.append_assoc]

/-- The three fields of a decoded frame put together again are the 18 bytes. -/
theorem decodeWire_fields (b : Wire) :
    [(decodeWire b).length] ++ (decodeWire b).data.list ++ [(decodeWire b).crc] = b.list :=
  congrArg Bytes.list (serialize_decodeWire b)

/-- DECODE of 18 bytes; the crc check is the one on the bytes themselves. -/
theorem exec_decode_of_length (h : bytes.length = 18) :
    exec (.decode length bytes) s = .next { s with
      response := some ⟨.ok, .decoded (decodeWire ⟨bytes, h⟩) (checksum (bytes.take 17) == (decodeWire ⟨bytes, h⟩).crc)
        (isAck (decodeWire ⟨bytes, h⟩)) (isRetx (decodeWire ⟨bytes, h⟩)) (classify ⟨bytes, h⟩)⟩ } := by
  have hcrc : crcOk (decodeWire ⟨bytes, h⟩) = (checksum (bytes.take 17) == (decodeWire ⟨bytes, h⟩).crc) :=
    crcOk_decodeWire ⟨bytes, h⟩
  show execDecode length bytes s = _
  rw [execDecode, exactly_of_length h, ← hcrc]
  rfl

/-- DECODE of another number of bytes is a reserved form (30_encoding.md R69). -/
theorem exec_decode_of_ne (h : bytes.length ≠ 18) :
    exec (.decode length bytes) s = .next { s with response := some ⟨.reservedCommand, .none⟩ } := by
  show execDecode length bytes s = _
  rw [execDecode, exactly_of_ne h]
  rfl

/-- Settles O28: the frame DECODE responds with is `decodeWire` of the operand, whose fields are the 18 bytes. -/
theorem decodeResponds : Obligations.DecodeResponds := fun _ bytes _ =>
  ⟨fun h => ⟨decodeWire ⟨bytes, h⟩, decodeWire_fields ⟨bytes, h⟩, exec_decode_of_length h⟩, exec_decode_of_ne⟩

end Sys2Proof.Machine
end

section
/-! PROOFS. RX_CHUNK in ONE_PER_FEED mode (42_reassembler.md R113, R114). -/

namespace Sys2Proof.Machine

variable {length : Byte} {c : List Byte} {s : State}

/-- RX_CHUNK of at least one byte in an unfaulted block is a feed; the response tells whether it left a fault. -/
theorem exec_rxChunk_eq_feed (hc : c ≠ []) (hf : s.st.fault = .none) :
    exec (.rxChunk length c) s = .next { feed c s with
      response := some ⟨if (feed c s).st.fault = .none then .ok else .blockFaulted, .none⟩ } := by
  show execRxChunk length c s = _
  rcases execRxChunk_cases length c s with ⟨h, -⟩ | ⟨-, h, -⟩ | ⟨-, -, ht, e⟩ | ⟨-, -, ht, e⟩
  · exact absurd h hc
  · exact absurd hf h
  · rw [e, if_pos ht]; rfl
  · rw [e, if_neg ht]; rfl

theorem feed_of_onePerFeed (hm : s.params.reassemblyMode = .onePerFeed) : feed c s = onePerFeed c s := by
  rw [feed, hm]

/-! ### The three cases of `onePerFeed`, each from its condition -/

theorem onePerFeed_of_overflow {n : Nat} (hn : s.params.accCapacity = some n) (hlt : n < s.st.acc.length + c.length) :
    onePerFeed c s = raiseFault .accOverflow s := by
  rcases onePerFeed_cases c s with ⟨-, -, -, e⟩ | ⟨hcap, -⟩ | ⟨hcap, -⟩
  · exact e
  · exact absurd (hcap n hn) (by omega)
  · exact absurd (hcap n hn) (by omega)

section
variable (hcap : ∀ n, s.params.accCapacity = some n → s.st.acc.length + c.length ≤ n)
include hcap

theorem onePerFeed_of_short (hlt : s.st.acc.length + c.length < 18) : onePerFeed c s = s.setAcc (s.st.acc ++ c) := by
  rcases onePerFeed_cases c s with ⟨n, hn, hov, -⟩ | ⟨-, -, e⟩ | ⟨-, hl, -⟩
  · exact absurd (hcap n hn) (by omega)
  · exact e
  · rw [List.length_take, List.length_append] at hl
    omega

theorem onePerFeed_of_frame (hge : 18 ≤ s.st.acc.length + c.length) :
    ∃ b : Wire, b.list = (s.st.acc ++ c).take 18 ∧ onePerFeed c s = processFrame b (s.setAcc ((s.st.acc ++ c).drop 18)) := by
  rcases onePerFeed_cases c s with ⟨n, hn, hov, -⟩ | ⟨-, hlt, -⟩ | ⟨-, hl, e⟩
  · exact absurd (hcap n hn) (by omega)
  · omega
  · exact ⟨_, rfl, e⟩

end

/-- Settles O31: RX_CHUNK is a feed, which in this mode overflows, only appends, or runs one frame on the rest of the accumulator; each of the
three ends unfold to the stated state, the frame's own row being `processFrame`. -/
theorem rxChunkOnePerFeed : Obligations.RxChunkOnePerFeed := by
  intro length c s hc hf hm
  rw [exec_rxChunk_eq_feed hc hf, feed_of_onePerFeed hm]
  refine ⟨fun n hn hlt => ?_, fun hcap => ⟨fun hlt => ?_, fun hge => ?_⟩⟩
  · rw [onePerFeed_of_overflow hn hlt, raiseFault_of_none hf]
    rfl
  · rw [onePerFeed_of_short hcap hlt, State.setAcc_st, if_pos hf]
    rfl
  · obtain ⟨b, hb, e⟩ := onePerFeed_of_frame hcap hge
    exact ⟨b, _, hb, exec_decodeFrame b (s.setAcc _), by rw [e]⟩

end Sys2Proof.Machine
end

section
/-! PROOFS. The Link Controller: the four frame rows and SEND_PAYLOAD (43_link_controller.md R122 to R127). -/

namespace Sys2Proof.Machine

variable {length : Byte} {p : List Byte} {f : Frame} {s : State}

/-! ### `onCrcFailed` and `accept`, each branch from its condition -/

theorem onCrcFailed_of_unlimited (h : s.params.retxLimit = none) : onCrcFailed s = send retxFrame s := by
  rw [onCrcFailed, h]

section
variable {m : Nat} (hm : s.params.retxLimit = some m)
include hm

theorem onCrcFailed_of_ne_limit (hne : s.st.retxCount ≠ m) :
    onCrcFailed s = send retxFrame (s.setRetxCount (s.st.retxCount + 1)) := by
  simp only [onCrcFailed, hm, if_neg hne]

theorem onCrcFailed_of_eq_limit (heq : s.st.retxCount = m) : onCrcFailed s = raiseFault .linkError s := by
  simp only [onCrcFailed, hm, if_pos heq]

end

theorem accept_of_room (h : s.params.pendingDepth ≠ some s.st.pending.length) :
    accept f s = send ackFrame (s.setPending (s.st.pending ++ [f])) := by
  rw [accept, if_neg (mt (pendingFull_iff s).mp h)]

theorem accept_of_full (h : s.params.pendingDepth = some s.st.pending.length) : accept f s = raiseFault .queueOverflow s := by
  rw [accept, if_pos ((pendingFull_iff s).mpr h)]

/-! ### The frame rows -/

theorem exec_frameCrcFailed (f : Frame) (s : State) : exec (.frameCrcFailed f) s = .next (onCrcFailed s) := rfl

theorem exec_frameRetx (s : State) :
    exec .frameRetx s = .next { s with st := { s.st with retxCount := 0 }, txLog := s.txLog ++ [s.st.lastSent] } := rfl

theorem exec_frameAck (s : State) : exec .frameAck s = .next { s with st := { s.st with retxCount := 0 } } := rfl

theorem exec_frameData (f : Frame) (s : State) : exec (.frameData f) s = .next (accept f (s.setRetxCount 0)) := rfl

/-- Settles O36: FRAME_CRC_FAILED is `onCrcFailed`, whose three branches are the three clauses. -/
theorem crcFailureRequestsARetransmission : Obligations.CrcFailureRequestsARetransmission := by
  refine fun f s => ⟨fun hnone => ?_, fun m hm hne => ?_, fun m hm heq hf => ?_⟩ <;> rw [exec_frameCrcFailed]
  · rw [onCrcFailed_of_unlimited hnone]
    rfl
  · rw [onCrcFailed_of_ne_limit hm hne]
    rfl
  · rw [onCrcFailed_of_eq_limit hm heq, raiseFault_of_none hf]
    rfl

/-- Settles O37: a replay leaves `st.lastSent`, so the second one appends the same bytes to the stream of the first, and the count is 0
already. -/
theorem retxReplaysTheLastFrame : Obligations.RetxReplaysTheLastFrame := by
  refine fun s => ⟨_, exec_frameRetx s, rfl, ?_⟩
  have htwice : (s.txLog ++ [s.st.lastSent]) ++ [s.st.lastSent] = s.txLog ++ [s.st.lastSent, s.st.lastSent] :=
    List.append_assoc ..
  rw [exec_frameRetx, ← htwice]

/-- Settles O38: FRAME_ACK's meaning is the write of the count alone. -/
theorem ackHasNoEffect : Obligations.AckHasNoEffect := exec_frameAck

/-- Settles O39: FRAME_DATA is `accept` after the count's reset, which leaves the depth, the queue and the fault that `accept` reads. -/
theorem dataIsQueuedAndAcknowledged : Obligations.DataIsQueuedAndAcknowledged := by
  refine fun f s => ⟨fun hroom => ?_, fun hfull hf => ?_⟩ <;> rw [exec_frameData]
  · have hne : (s.setRetxCount 0).params.pendingDepth ≠ some (s.setRetxCount 0).st.pending.length := fun h => hroom _ h rfl
    rw [accept_of_room hne]
    rfl
  · have hnone : (s.setRetxCount 0).st.fault = .none := hf
    rw [accept_of_full (s := s.setRetxCount 0) hfull, raiseFault_of_none hnone]
    rfl

/-! ### SEND_PAYLOAD, in R160's order -/

theorem exec_sendPayload_of_fault (h : s.st.fault ≠ .none) :
    exec (.sendPayload length p) s = .next { s with response := some ⟨.blockFaulted, .none⟩ } := by
  show execSendPayload length p s = _
  rw [execSendPayload, if_pos h]
  rfl

section
variable (hf : s.st.fault = .none)
include hf

theorem exec_sendPayload_of_gt (h : 16 < p.length) :
    exec (.sendPayload length p) s = .next { s with response := some ⟨.oversizedPayload, .none⟩ } := by
  show execSendPayload length p s = _
  rw [execSendPayload, if_neg (not_not.mpr hf), encodeFrame_of_gt h]
  rfl

theorem exec_sendPayload_of_encode {b : Wire} (h : encodeFrame length p = some b) :
    exec (.sendPayload length p) s =
      .next { s with st := { s.st with lastSent := b }, txLog := s.txLog ++ [b], response := some ⟨.ok, .none⟩ } := by
  show execSendPayload length p s = _
  rw [execSendPayload, if_neg (not_not.mpr hf), h]
  rfl

end

/-- Settles O40: the three clauses are SEND_PAYLOAD's three checks in order; the frame it sends is the serialized local frame of the padded
payload. -/
theorem sendPayloadTransmits : Obligations.SendPayloadTransmits := by
  refine fun length p s => ⟨exec_sendPayload_of_fault, exec_sendPayload_of_gt, fun hf hle => ?_⟩
  refine ⟨_, ?_, exec_sendPayload_of_encode hf (encodeFrame_of_le hle)⟩
  rw [serialize_makeFrame_list, pad_list]
  simp only [List.append_assoc]

end Sys2Proof.Machine
end

section
/-! PROOFS. What an instruction can do, said once for all eleven, and what follows for every step: it answers a next state, it leaves the
parameters, and it only adds to the outputs (10_state.md R27, R32; 60_exceptions.md R150). -/

namespace Sys2Proof.Machine

variable {s t : State} {i : Instr}

/-! ### What raising a fault, and the two frame actions that may, leave -/

/-- Raising a fault writes the fault register only. -/
theorem raiseFault_eq (c : FaultCode) (s : State) :
    raiseFault c s = s.setFault (if s.st.fault = .none then c else s.st.fault) := by
  unfold raiseFault
  split <;> rfl

@[simp] theorem raiseFault_params (c : FaultCode) (s : State) : (raiseFault c s).params = s.params := by rw [raiseFault_eq]; rfl
@[simp] theorem raiseFault_pending (c : FaultCode) (s : State) : (raiseFault c s).st.pending = s.st.pending := by rw [raiseFault_eq]; rfl
@[simp] theorem raiseFault_acc (c : FaultCode) (s : State) : (raiseFault c s).st.acc = s.st.acc := by rw [raiseFault_eq]; rfl

@[simp] theorem onCrcFailed_params (s : State) : (onCrcFailed s).params = s.params := by
  rcases onCrcFailed_cases s with ⟨-, e⟩ | ⟨_, -, -, e⟩ | ⟨-, e⟩ <;> simp [e]

@[simp] theorem onCrcFailed_pending (s : State) : (onCrcFailed s).st.pending = s.st.pending := by
  rcases onCrcFailed_cases s with ⟨-, e⟩ | ⟨_, -, -, e⟩ | ⟨-, e⟩ <;> simp [e]

@[simp] theorem onCrcFailed_acc (s : State) : (onCrcFailed s).st.acc = s.st.acc := by
  rcases onCrcFailed_cases s with ⟨-, e⟩ | ⟨_, -, -, e⟩ | ⟨-, e⟩ <;> simp [e]

@[simp] theorem accept_params (f : Frame) (s : State) : (accept f s).params = s.params := by
  rcases accept_cases f s with ⟨-, e⟩ | ⟨-, e⟩ <;> simp [e]

@[simp] theorem accept_acc (f : Frame) (s : State) : (accept f s).st.acc = s.st.acc := by
  rcases accept_cases f s with ⟨-, e⟩ | ⟨-, e⟩ <;> simp [e]

/-- A frame leaves the parameters. -/
@[simp] theorem processFrame_params (b : Wire) (s : State) : (processFrame b s).params = s.params := by
  rcases processFrame_cases b s with ⟨-, e⟩ | ⟨-, e⟩ | ⟨-, e⟩ | ⟨-, -, -, -, e⟩ <;> rw [e]
  · exact onCrcFailed_params s
  · rfl
  · rfl
  · exact accept_params _ _

/-- A feed leaves the parameters. -/
@[simp] theorem feed_params (c : List Byte) (s : State) : (feed c s).params = s.params :=
  feed_induction (P := fun u => u.params = s.params) (fun _ _ h => h) (fun b u h => (processFrame_params b u).trans h)
    (fun u _ _ h => (raiseFault_params _ u).trans h) c s rfl

/-! ### The instructions -/

/-! ### RECEIVE_NEXT -/

/-- RECEIVE_NEXT removes and returns the head, whatever the fault register holds (60_exceptions.md R154). -/
theorem exec_receiveNext_of_cons {l : Byte} {c : List Byte} {f : Frame} {rest : List Frame} (h : s.st.pending = f :: rest) :
    exec (.receiveNext l c) s =
      .next { s with st := { s.st with pending := rest }, response := some ⟨.ok, .frame f⟩ } := by
  show execReceiveNext l c s = _
  rw [execReceiveNext, h]
  rfl

/-- With nothing pending it holds. -/
theorem exec_receiveNext_of_nil {l : Byte} {c : List Byte} (h : s.st.pending = []) :
    exec (.receiveNext l c) s = .next { s with response := none } := by
  show execReceiveNext l c s = _
  rw [execReceiveNext, h]
  rfl

/-- All an instruction can do: feed a chunk, send a payload, pop the queue, only answer (a hold answers none), or act as one of the four
frame classes. -/
inductive Effect (s : State) : Instr → State → Prop
  | feed (l : Byte) (c : List Byte) (r : Response) (hc : c ≠ []) (hf : s.st.fault = .none) :
      Effect s (.rxChunk l c) { feed c s with response := some r }
  | send (l : Byte) (p : List Byte) (b : Wire) (hf : s.st.fault = .none) (hb : encodeFrame l p = some b) :
      Effect s (.sendPayload l p) { send b s with response := some ⟨.ok, .none⟩ }
  | pop (l : Byte) (c : List Byte) (f : Frame) (rest : List Frame) (hp : s.st.pending = f :: rest) :
      Effect s (.receiveNext l c) { s.setPending rest with response := some ⟨.ok, .frame f⟩ }
  | answer (i : Instr) (r : Option Response) : Effect s i { s with response := r }
  | retx : Effect s .frameRetx (replay (s.setRetxCount 0))
  | ack : Effect s .frameAck (s.setRetxCount 0)
  | crcFailed (f : Frame) : Effect s (.frameCrcFailed f) (onCrcFailed s)
  | data (f : Frame) : Effect s (.frameData f) (accept f (s.setRetxCount 0))

/-- Every instruction answers a next state, and it is one of these. -/
theorem exec_answers (i : Instr) (s : State) : ∃ t, exec i s = .next t ∧ Effect s i t := by
  have answered {r : Option Response} (e : exec i s = .next { s with response := r }) : ∃ t, exec i s = .next t ∧ Effect s i t :=
    ⟨_, e, .answer i r⟩
  cases i with
  | rxChunk l c =>
    rcases execRxChunk_cases l c s with ⟨-, e⟩ | ⟨-, -, e⟩ | ⟨hc, hf, -, e⟩ | ⟨hc, hf, -, e⟩
    · exact answered e
    · exact answered e
    · exact ⟨_, e, .feed l c _ hc hf⟩
    · exact ⟨_, e, .feed l c _ hc hf⟩
  | sendPayload l p =>
    by_cases hf : s.st.fault = .none
    · rcases Nat.lt_or_ge 16 p.length with hp | hp
      · exact answered (exec_sendPayload_of_gt hf hp)
      · exact ⟨_, exec_sendPayload_of_encode hf (encodeFrame_of_le hp), .send l p _ hf (encodeFrame_of_le hp)⟩
    · exact answered (exec_sendPayload_of_fault hf)
  | receiveNext l c =>
    cases hp : s.st.pending with
    | nil => exact answered (exec_receiveNext_of_nil hp)
    | cons f rest => exact ⟨_, exec_receiveNext_of_cons hp, .pop l c f rest hp⟩
  | crc8 l c => exact answered (exec_crc8 l c s)
  | encode l p =>
    rcases Nat.lt_or_ge 16 p.length with hp | hp
    · exact answered (exec_encode_of_gt hp)
    · exact answered (exec_encode_of_le hp)
  | decode l c =>
    by_cases hc : c.length = 18
    · exact answered (exec_decode_of_length hc)
    · exact answered (exec_decode_of_ne hc)
  | reserved o l c => exact answered (exec_reserved o l c s)
  | frameRetx => exact ⟨_, rfl, .retx⟩
  | frameAck => exact ⟨_, rfl, .ack⟩
  | frameCrcFailed f => exact ⟨_, rfl, .crcFailed f⟩
  | frameData f => exact ⟨_, rfl, .data f⟩

theorem exec_effect (h : exec i s = .next t) : Effect s i t := by
  obtain ⟨u, hu, heff⟩ := exec_answers i s
  cases h.symm.trans hu
  exact heff

theorem exec_total (i : Instr) (s : State) : ∃ t, exec i s = .next t :=
  (exec_answers i s).imp fun _ h => h.1

/-! ### The steps, by the next turn -/

theorem step_of_no_turn (h : s.schedule = []) : step s = .next s := by rw [step, h]

theorem step_of_reset {rest : List Turn} (h : s.schedule = .reset :: rest) :
    step s = .next (resetEvent { s with schedule := rest }) := by rw [step, h]

section
variable {a : Agent} {rest : List Turn} (hs : s.schedule = .agent a :: rest)
include hs

theorem step_of_idle_agent (hr : takeRequest a s.requests = none) : step s = .next { s with schedule := rest } := by
  rw [step, hs]
  show agentTurn a { s with schedule := rest } = _
  rw [agentTurn, hr]

theorem step_of_command {c : Command} {others : List Request} (hr : takeRequest a s.requests = some (c, others))
    (he : exec (decodeCommand c) { s with schedule := rest } = .next t) : step s = .next (settle a others t) := by
  rw [step, hs]
  show agentTurn a { s with schedule := rest } = _
  simp only [agentTurn, hr, he]

end

theorem step_total (s : State) : ∃ t, step s = .next t := by
  rcases hs : s.schedule with _ | ⟨a | _, rest⟩
  · exact ⟨_, step_of_no_turn hs⟩
  · rcases hr : takeRequest a s.requests with _ | ⟨c, others⟩
    · exact ⟨_, step_of_idle_agent hs hr⟩
    · obtain ⟨t, he⟩ := exec_total (decodeCommand c) { s with schedule := rest }
      exact ⟨_, step_of_command hs hr he⟩
  · exact ⟨_, step_of_reset hs⟩

/-- Settles O4: every arm of `exec` answers a next state, and so does every turn of the schedule. -/
theorem nothingStopsTheBlock : Obligations.NothingStopsTheBlock := ⟨exec_total, step_total⟩

/-- Settles O5: none of the operations a step is made of writes the parameters. -/
theorem stepsNeverChangeParams : Obligations.StepsNeverChangeParams := fun s t =>
  step_induction (P := fun u => u.params = s.params)
    (hacc := fun _ _ h => h)
    (hover := fun u _ _ h => (raiseFault_params _ u).trans h)
    (hcount := fun _ h => h)
    (hcrc := fun u h => (onCrcFailed_params u).trans h)
    (hreplay := fun _ h => h)
    (haccept := fun f u _ h => (accept_params f u).trans h)
    (hsend := fun _ _ _ _ _ h => h)
    (hpop := fun _ _ _ _ h => h)
    (hresp := fun _ _ h => h)
    (hport := fun _ _ _ _ h => h)
    (hreset := fun _ h => h)
    s t rfl

/-! ### The outputs -/

/-- The stream and the responses of `t` go on from those of `s`. -/
def OutputsExtend (s t : State) : Prop := s.txLog <+: t.txLog ∧ s.responses <+: t.responses

theorem OutputsExtend.of_raiseFault (c : FaultCode) {u : State} (h : OutputsExtend s u) : OutputsExtend s (raiseFault c u) := by
  rw [raiseFault_eq]; exact h

theorem OutputsExtend.of_emit (b : Wire) {u : State} (h : OutputsExtend s u) : OutputsExtend s (emit b u) :=
  ⟨h.1.trans (List.prefix_append _ _), h.2⟩

theorem OutputsExtend.of_onCrcFailed {u : State} (h : OutputsExtend s u) : OutputsExtend s (onCrcFailed u) := by
  rcases onCrcFailed_cases u with ⟨-, e⟩ | ⟨_, -, -, e⟩ | ⟨-, e⟩ <;> rw [e]
  · exact h.of_emit retxFrame
  · exact h.of_emit retxFrame
  · exact h.of_raiseFault _

theorem OutputsExtend.of_accept (f : Frame) {u : State} (h : OutputsExtend s u) : OutputsExtend s (accept f u) := by
  rcases accept_cases f u with ⟨-, e⟩ | ⟨-, e⟩ <;> rw [e]
  · exact h.of_emit ackFrame
  · exact h.of_raiseFault _

theorem step_outputsExtend (h : step s = .next t) : OutputsExtend s t :=
  step_induction (P := OutputsExtend s)
    (hacc := fun _ _ h => h)
    (hover := fun _ _ _ h => h.of_raiseFault _)
    (hcount := fun _ h => h)
    (hcrc := fun _ h => h.of_onCrcFailed)
    (hreplay := fun u h => h.of_emit u.st.lastSent)
    (haccept := fun f _ _ h => h.of_accept f)
    (hsend := fun _ _ b _ _ h => h.of_emit b)
    (hpop := fun _ _ _ _ h => h)
    (hresp := fun _ _ h => h)
    (hport := fun _ _ _ _ h => ⟨h.1, h.2.trans (List.prefix_append _ _)⟩)
    (hreset := fun _ h => h)
    s t ⟨List.prefix_rfl, List.prefix_rfl⟩ h

/-- Settles O6: the only operations that touch the outputs append to them. -/
theorem outputsOnlyGrow : Obligations.OutputsOnlyGrow := fun _ _ => step_outputsExtend

end Sys2Proof.Machine
end

section
/-! PROOFS. The machine's invariant (10_state.md R21 to R26, 44_payload_queue.md R140, R143) in three parts: what every shared operation keeps,
the bound of the accumulator, and the outstanding commands. -/

namespace Sys2Proof.Machine

variable {s t : State}

/-- Which faults the parameters allow (10_state.md R26). -/
def FaultCode.Allowed (p : Params) : FaultCode → Prop
  | .none => True
  | .queueOverflow => p.pendingDepth ≠ Option.none
  | .accOverflow => p.reassemblyMode = .onePerFeed ∧ p.accCapacity ≠ Option.none
  | .linkError => p.retxLimit ≠ Option.none

/-- The part of the invariant that each shared operation keeps by itself. -/
structure State.Sound (s : State) : Prop where
  params : s.params.inDomain = true
  depth : ∀ d, s.params.pendingDepth = some d → s.st.pending.length ≤ d
  countUnlimited : s.params.retxLimit = none → s.st.retxCount = 0
  countLimited : ∀ m, s.params.retxLimit = some m → s.st.retxCount ≤ m
  pendingAccepted : ∀ f ∈ s.st.pending, isAccepted f = true
  lastSentValid : crcOk (decodeWire s.st.lastSent) = true
  txValid : ∀ w ∈ s.txLog, crcOk (decodeWire w) = true
  fault : s.st.fault.Allowed s.params

theorem State.Sound.allowed {c : FaultCode} (h : s.Sound) (hc : s.st.fault = c) : c.Allowed s.params := hc ▸ h.fault

/-- The accumulator's bound in each mode (10_state.md R21). -/
structure State.AccBounded (s : State) : Prop where
  drainAll : s.params.reassemblyMode = .drainAll → s.st.acc.length ≤ 17
  onePerFeed : ∀ n, s.params.reassemblyMode = .onePerFeed → s.params.accCapacity = some n → s.st.acc.length ≤ n

/-- A RECEIVE_NEXT is its agent's last outstanding command (44_payload_queue.md R143, log 20). -/
def ReceiveIsLast (rs : List Request) : Prop :=
  rs.Pairwise (fun r later => r.command.op = opReceiveNext → later.agent ≠ r.agent)

/-- The invariant is its three parts. -/
theorem State.inv_iff : s.Inv ↔ s.Sound ∧ s.AccBounded ∧ ReceiveIsLast s.requests := by
  constructor
  · intro h
    have hfault : s.st.fault.Allowed s.params := by
      cases hf : s.st.fault with
      | none => trivial
      | queueOverflow => exact h.queueFault hf
      | accOverflow => exact h.accFault hf
      | linkError => exact h.linkFault hf
    exact ⟨⟨h.params, h.depth, h.countUnlimited, h.countLimited, h.pendingAccepted, h.lastSentValid, h.txValid, hfault⟩,
      ⟨h.accDrainAll, h.accOnePerFeed⟩, h.oneReceive⟩
  · rintro ⟨h, ⟨hdrain, hfeed⟩, hreq⟩
    exact {
      params := h.params, accDrainAll := hdrain, accOnePerFeed := hfeed, depth := h.depth, countUnlimited := h.countUnlimited
      countLimited := h.countLimited, pendingAccepted := h.pendingAccepted, lastSentValid := h.lastSentValid, txValid := h.txValid
      queueFault := h.allowed, accFault := h.allowed, linkFault := h.allowed
      oneReceive := hreq }

/-! ### `Sound`, operation by operation -/

theorem State.Sound.setRetxCount_zero (h : s.Sound) : (s.setRetxCount 0).Sound :=
  { h with countUnlimited := fun _ => rfl, countLimited := fun _ _ => Nat.zero_le _ }

theorem State.Sound.raiseFault {c : FaultCode} (h : s.Sound) (hc : c.Allowed s.params) : (raiseFault c s).Sound := by
  rcases raiseFault_cases c s with e | ⟨-, e⟩ <;> rw [e]
  · exact { h with fault := hc }
  · exact h

theorem State.Sound.send {b : Wire} (h : s.Sound) (hb : crcOk (decodeWire b) = true) : (send b s).Sound :=
  { h with lastSentValid := hb, txValid := List.forall_mem_append.mpr ⟨h.txValid, List.forall_mem_singleton.mpr hb⟩ }

theorem State.Sound.replay (h : s.Sound) : (replay s).Sound :=
  { h with txValid := List.forall_mem_append.mpr ⟨h.txValid, List.forall_mem_singleton.mpr h.lastSentValid⟩ }

theorem State.Sound.onCrcFailed (h : s.Sound) : (onCrcFailed s).Sound := by
  rcases onCrcFailed_cases s with ⟨-, e⟩ | ⟨m, hm, hne, e⟩ | ⟨hlim, e⟩ <;> rw [e]
  · exact h.send retxFrame_valid
  · have hlt : s.st.retxCount < m := lt_of_le_of_ne (h.countLimited m hm) hne
    have hcount : (s.setRetxCount (s.st.retxCount + 1)).Sound :=
      { h with
        countUnlimited := fun hnone => absurd (hm.symm.trans hnone) (by simp)
        countLimited := fun k hk => by cases hm.symm.trans hk; exact hlt }
    exact hcount.send retxFrame_valid
  · exact h.raiseFault (by simp [FaultCode.Allowed, hlim])

theorem State.Sound.accept {f : Frame} (h : s.Sound) (hf : isAccepted f = true) : (accept f s).Sound := by
  rcases accept_cases f s with ⟨hroom, e⟩ | ⟨hfull, e⟩ <;> rw [e]
  · have hpush : (s.setPending (s.st.pending ++ [f])).Sound :=
      { h with
        depth := fun d hd => by
          have hle := h.depth d hd
          have hne : s.st.pending.length ≠ d := fun e => hroom (e ▸ hd)
          simp only [State.setPending_st, List.length_append, List.length_singleton]
          omega
        pendingAccepted := List.forall_mem_append.mpr ⟨h.pendingAccepted, List.forall_mem_singleton.mpr hf⟩ }
    exact hpush.send ackFrame_valid
  · exact h.raiseFault (by simp [FaultCode.Allowed, hfull])

theorem State.Sound.pop {f : Frame} {rest : List Frame} (hp : s.st.pending = f :: rest) (h : s.Sound) : (s.setPending rest).Sound :=
  { h with
    depth := fun d hd => by
      have hle := h.depth d hd
      rw [hp, List.length_cons] at hle
      exact Nat.le_of_succ_le hle
    pendingAccepted := fun g hg => h.pendingAccepted g (by rw [hp]; exact List.mem_cons_of_mem f hg) }

/-- The block's elements at R170's values, with any parameters in their domains. -/
theorem State.Sound.resetEvent (h : s.Sound) : (resetEvent s).Sound where
  params := h.params
  depth _ _ := Nat.zero_le _
  countUnlimited _ := rfl
  countLimited _ _ := Nat.zero_le _
  pendingAccepted _ hf := nomatch hf
  lastSentValid := ackFrame_valid
  txValid := h.txValid
  fault := trivial

theorem step_sound (h : s.Sound) (hstep : step s = .next t) : t.Sound :=
  step_induction (P := State.Sound)
    (hacc := fun _ _ h => { h with })
    (hover := fun _ hm hcap h => h.raiseFault ⟨hm, hcap⟩)
    (hcount := fun _ h => h.setRetxCount_zero)
    (hcrc := fun _ h => h.onCrcFailed)
    (hreplay := fun _ h => h.replay)
    (haccept := fun _ _ hf h => h.accept hf)
    (hsend := fun _ _ _ _ hb h => h.send (encodeFrame_valid hb))
    (hpop := fun _ _ _ hp h => h.pop hp)
    (hresp := fun _ _ h => { h with })
    (hport := fun _ _ _ _ h => { h with })
    (hreset := fun _ h => h.resetEvent)
    s t h hstep

/-! ### The accumulator -/

/-- Whatever stands there before, a drain leaves at most 17 bytes if it finds at most 17. -/
theorem drainAll_acc_le (c : List Byte) (s : State) (h : s.st.acc.length ≤ 17) : (drainAll c s).st.acc.length ≤ 17 := by
  induction c generalizing s with
  | nil => exact h
  | cons x c ih =>
    by_cases hl : (s.st.acc ++ [x]).length = 18
    · have hzero : (processFrame ⟨s.st.acc ++ [x], hl⟩ (s.setAcc [])).st.acc.length ≤ 17 := by
        rw [processFrame_acc]; exact Nat.zero_le _
      rw [drainAll_cons_full hl]
      split
      · exact ih _ hzero
      · exact hzero
    · have hlen : s.st.acc.length + 1 ≠ 18 := by simpa using hl
      rw [drainAll_cons_short hlen]
      exact ih _ (by simp only [State.setAcc_st, List.length_append, List.length_singleton]; omega)

theorem onePerFeed_acc_le {n : Nat} (hn : s.params.accCapacity = some n) (c : List Byte) (h : s.st.acc.length ≤ n) :
    (onePerFeed c s).st.acc.length ≤ n := by
  rcases onePerFeed_cases c s with ⟨_, -, -, e⟩ | ⟨hcap, -, e⟩ | ⟨hcap, _, e⟩ <;> rw [e]
  · rw [raiseFault_acc]; exact h
  · simpa using hcap n hn
  · have hfit := hcap n hn
    rw [processFrame_acc]
    simp only [State.setAcc_st, List.length_drop, List.length_append]
    omega

theorem State.AccBounded.feed (c : List Byte) (h : s.AccBounded) : (feed c s).AccBounded := by
  constructor
  · intro hm
    rw [feed_params] at hm
    rw [Machine.feed, hm]
    exact drainAll_acc_le c s (h.drainAll hm)
  · intro n hm hn
    rw [feed_params] at hm hn
    rw [Machine.feed, hm]
    exact onePerFeed_acc_le hn c (h.onePerFeed n hm hn)

/-- The bound reads the parameters and the accumulator only. -/
theorem State.AccBounded.of_eq (h : s.AccBounded) (hp : t.params = s.params) (hacc : t.st.acc = s.st.acc) : t.AccBounded := by
  constructor
  · rw [hp, hacc]; exact h.drainAll
  · rw [hp, hacc]; exact h.onePerFeed

theorem exec_accBounded {i : Instr} (h : s.AccBounded) (he : exec i s = .next t) : t.AccBounded := by
  cases exec_effect he with
  | feed l c r => exact (h.feed c).of_eq rfl rfl
  | send l p b => exact h.of_eq rfl rfl
  | pop l c f rest => exact h.of_eq rfl rfl
  | answer i r => exact h.of_eq rfl rfl
  | retx => exact h.of_eq rfl rfl
  | ack => exact h.of_eq rfl rfl
  | crcFailed f => exact h.of_eq (onCrcFailed_params s) (onCrcFailed_acc s)
  | data f => exact h.of_eq (accept_params f (s.setRetxCount 0)) (accept_acc f (s.setRetxCount 0))

theorem step_accBounded (h : s.AccBounded) (hstep : step s = .next t) : t.AccBounded := by
  rcases step_cases hstep with ⟨-, rfl⟩ | ⟨rest, -, rfl⟩ | ⟨a, rest, -, -, rfl⟩ | ⟨a, rest, c, others, u, -, -, hu, rfl⟩
  · exact h
  · exact ⟨fun _ => Nat.zero_le _, fun _ _ _ => Nat.zero_le _⟩
  · exact h.of_eq rfl rfl
  · have hb : u.AccBounded := exec_accBounded (s := { s with schedule := rest }) (h.of_eq rfl rfl) hu
    rcases settle_cases a others u with ⟨-, e⟩ | ⟨r, -, e⟩ <;> rw [e]
    · exact hb
    · exact hb.of_eq rfl rfl

/-! ### The whole invariant -/

theorem step_inv (h : s.Inv) (hstep : step s = .next t) : t.Inv := by
  obtain ⟨hsound, hacc, hreq⟩ := State.inv_iff.mp h
  exact State.inv_iff.mpr ⟨step_sound hsound hstep, step_accBounded hacc hstep, hreq.sublist (step_requests hstep)⟩

/-- Settles O3: each part of the invariant survives a step: `Sound` because every shared operation keeps it, the accumulator's bound because
only a feed and a reset write the accumulator, the outstanding commands because a step only takes some away. -/
theorem everyStepKeepsInvariant : Obligations.EveryStepKeepsInvariant := fun _ _ => step_inv

theorem resetWith_inv {p : Params} (hp : p.inDomain = true) : (State.resetWith p).Inv where
  params := hp
  accDrainAll _ := Nat.zero_le _
  accOnePerFeed _ _ _ := Nat.zero_le _
  depth _ _ := Nat.zero_le _
  countUnlimited _ := rfl
  countLimited _ _ := Nat.zero_le _
  pendingAccepted _ hf := nomatch hf
  lastSentValid := ackFrame_valid
  txValid _ hw := nomatch hw
  queueFault h := nomatch h
  accFault h := nomatch h
  linkFault h := nomatch h
  oneReceive := .nil

/-- Settles O2: every clause is about an empty list, the count 0, no fault, or ACK_FRAME. -/
theorem invariantHoldsAtReset : Obligations.InvariantHoldsAtReset := ⟨resetWith_inv rfl, fun _ => resetWith_inv⟩

end Sys2Proof.Machine
end

section
/-! PROOFS. The classes of a frame and the two directions of the round trip (30_encoding.md R60 to R68, 41_frame_codec.md R97 to R103). -/

namespace Sys2Proof.Machine

/-! ### The class, by the conditions R99 tests -/

theorem classOf_eq_crcFailed_iff (f : Frame) : classOf f = .crcFailed ↔ crcOk f = false := by
  unfold classOf; split_ifs <;> simp_all

theorem classOf_eq_retx_iff (f : Frame) : classOf f = .retx ↔ crcOk f = true ∧ isRetx f = true := by
  unfold classOf; split_ifs <;> simp_all

theorem classOf_eq_ack_iff (f : Frame) : classOf f = .ack ↔ crcOk f = true ∧ isAck f = true := by
  have hdisj : isAck f = true → isRetx f = false := isAck_not_isRetx
  unfold classOf; split_ifs <;> simp_all

theorem classOf_eq_data_iff (f : Frame) : classOf f = .data ↔ isAccepted f = true := by
  unfold classOf isAccepted; split_ifs <;> simp_all

/-- R103: a valid crc and a control shape leave one value. -/
theorem eq_controlFrame_iff (x : Byte) (b : Wire) :
    b = serialize (makeFrame controlLength (pad [x] (by simp))) ↔
      crcOk (decodeWire b) = true ∧ controlShape x (decodeWire b) = true := by
  constructor
  · rintro rfl
    rw [decodeWire_serialize]
    exact ⟨crcOk_makeFrame _ _, controlShape_makeFrame x⟩
  · rintro ⟨hc, hx⟩
    rw [← serialize_decodeWire b, eq_makeFrame_of_controlShape hc hx]

theorem classify_eq_ack_iff (b : Wire) : classify b = .ack ↔ b = ackFrame :=
  (classOf_eq_ack_iff _).trans (eq_controlFrame_iff ackData0 b).symm

theorem classify_eq_retx_iff (b : Wire) : classify b = .retx ↔ b = retxFrame :=
  (classOf_eq_retx_iff _).trans (eq_controlFrame_iff retxData0 b).symm

/-- Settles O16: a control class is a valid crc and a control shape, and these leave one frame. -/
theorem controlFramesAreExact : Obligations.ControlFramesAreExact := fun b => ⟨classify_eq_ack_iff b, classify_eq_retx_iff b⟩

/-- R66's first condition on the bytes. -/
theorem classify_eq_crcFailed_iff (b : Wire) : classify b = .crcFailed ↔ checksum (b.list.take 17) ≠ byteAt b 17 := by
  rw [classify, classOf_eq_crcFailed_iff, crcOk_decodeWire, beq_eq_false_iff_ne]

/-- What neither fails its crc nor is a control frame is data. -/
theorem classify_eq_data {b : Wire} (hc : checksum (b.list.take 17) = byteAt b 17) (hr : b ≠ retxFrame) (ha : b ≠ ackFrame) :
    classify b = .data := by
  cases h : classify b with
  | crcFailed => exact absurd hc ((classify_eq_crcFailed_iff b).mp h)
  | retx => exact absurd ((classify_eq_retx_iff b).mp h) hr
  | ack => exact absurd ((classify_eq_ack_iff b).mp h) ha
  | data => rfl

/-! ### The decoder's row for each class -/

variable {b : Wire}

theorem decodeFrame_of_crcFailed (h : classify b = .crcFailed) : decodeFrame b = .frameCrcFailed (decodeWire b) := by rw [decodeFrame, h]
theorem decodeFrame_of_retx (h : classify b = .retx) : decodeFrame b = .frameRetx := by rw [decodeFrame, h]
theorem decodeFrame_of_ack (h : classify b = .ack) : decodeFrame b = .frameAck := by rw [decodeFrame, h]
theorem decodeFrame_of_data (h : classify b = .data) : decodeFrame b = .frameData (decodeWire b) := by rw [decodeFrame, h]

/-- Settles O15: each clause's conditions give the class, and the class gives the row and the code. -/
theorem framesFallIntoFourClasses : Obligations.FramesFallIntoFourClasses := by
  refine fun b => ⟨fun hc => ?_, fun hc => ⟨fun hr => ?_, fun ha => ?_, fun hr ha => ?_⟩⟩
  · have h := (classify_eq_crcFailed_iff b).mpr hc
    exact ⟨decodeFrame_of_crcFailed h, congrArg classCode h⟩
  · have h := (classify_eq_retx_iff b).mpr hr
    exact ⟨decodeFrame_of_retx h, congrArg classCode h⟩
  · have h := (classify_eq_ack_iff b).mpr ha
    exact ⟨decodeFrame_of_ack h, congrArg classCode h⟩
  · have h := classify_eq_data hc hr ha
    exact ⟨decodeFrame_of_data h, congrArg classCode h⟩

/-! ### The round trip -/

/-- Settles O11: constructor by constructor, from the lemmas of Laws/PerInstr. -/
theorem decodeEncodeIsIdentity : Obligations.DecodeEncodeIsIdentity := by
  intro i
  cases i with
  | rxChunk l c => exact Laws.RoundTrip.rxChunk l c
  | sendPayload l c => exact Laws.RoundTrip.sendPayload l c
  | receiveNext l c => exact Laws.RoundTrip.receiveNext l c
  | crc8 l c => exact Laws.RoundTrip.crc8 l c
  | encode l c => exact Laws.RoundTrip.encode l c
  | decode l c => exact Laws.RoundTrip.decode l c
  | reserved o l c => exact Laws.RoundTrip.reserved o l c
  | frameRetx => exact Laws.RoundTrip.frameRetx
  | frameAck => exact Laws.RoundTrip.frameAck
  | frameCrcFailed f => exact Laws.RoundTrip.frameCrcFailed f
  | frameData f => exact Laws.RoundTrip.frameData f

/-- A word and the instruction it decodes to say the same. -/
def DecodesFaithfully (w : Encoded) : Prop := (decode w).wellFormed = true ∧ encode (decode w) = w

theorem decodesFaithfully_frame (b : Wire) : DecodesFaithfully (.frame b) := by
  show (decodeFrame b).wellFormed = true ∧ encode (decodeFrame b) = .frame b
  have hser : Encoded.frame (serialize (decodeWire b)) = .frame b := congrArg Encoded.frame (serialize_decodeWire b)
  cases h : classify b with
  | crcFailed =>
    have hc : crcOk (decodeWire b) = false := (classOf_eq_crcFailed_iff _).mp h
    rw [decodeFrame_of_crcFailed h]
    exact ⟨by simp [Instr.wellFormed, hc], hser⟩
  | retx =>
    rw [decodeFrame_of_retx h, (classify_eq_retx_iff b).mp h]
    exact ⟨rfl, rfl⟩
  | ack =>
    rw [decodeFrame_of_ack h, (classify_eq_ack_iff b).mp h]
    exact ⟨rfl, rfl⟩
  | data =>
    rw [decodeFrame_of_data h]
    exact ⟨(classOf_eq_data_iff _).mp h, hser⟩

/-- Of the six defined codes (R68), one that is none of the first five is DECODE's. -/
theorem eq_opDecode_of_not_reserved {op : Byte} (hle : ¬ lastOp < op) (h0 : op ≠ opRxChunk) (h1 : op ≠ opSendPayload)
    (h2 : op ≠ opReceiveNext) (h3 : op ≠ opCrc8) (h4 : op ≠ opEncode) : op = opDecode := by
  simp only [lastOp, opRxChunk, opSendPayload, opReceiveNext, opCrc8, opEncode, opDecode] at *
  bv_omega

theorem command_eq {c : Command} {op : Byte} (h : c.op = op) : Encoded.command ⟨op, c.length, c.bytes⟩ = .command c := by
  rw [← h]

theorem decodesFaithfully_command (c : Command) : DecodesFaithfully (.command c) := by
  show (decodeCommand c).wellFormed = true ∧ encode (decodeCommand c) = .command c
  unfold decodeCommand
  split_ifs with hres h0 h1 h2 h3 h4
  · exact ⟨hres, rfl⟩
  · have hne : c.bytes.isEmpty = false := by simpa [reservedForm, h0, opRxChunk, opDecode, lastOp] using hres
    exact ⟨by simp [Instr.wellFormed, hne], command_eq h0⟩
  · exact ⟨rfl, command_eq h1⟩
  · exact ⟨rfl, command_eq h2⟩
  · exact ⟨rfl, command_eq h3⟩
  · exact ⟨rfl, command_eq h4⟩
  · have hle : ¬ lastOp < c.op := fun h => hres (by simp [reservedForm, h])
    have h5 : c.op = opDecode := eq_opDecode_of_not_reserved hle h0 h1 h2 h3 h4
    have hlen : c.bytes.length = 18 := by simpa [reservedForm, h5, opRxChunk, opDecode, lastOp] using hres
    exact ⟨by simp [Instr.wellFormed, hlen], command_eq h5⟩

/-- Settles O12: a frame by its class, a record by the branch of the command decoder it takes. -/
theorem encodeDecodeIsIdentity : Obligations.EncodeDecodeIsIdentity := by
  intro w
  cases w with
  | command c => exact decodesFaithfully_command c
  | frame b => exact decodesFaithfully_frame b

/-- Settles O13: seven closed words, each run through the decoder. -/
theorem writtenWordsDecode : Obligations.WrittenWordsDecode := by
  unfold Obligations.WrittenWordsDecode
  decide +kernel

/-! ### Layout, padding and recognizers -/

/-- Settles O23: the layout is `serialize`'s own bytes and `decodeWire`'s own fields; the inverse is Laws/Codec's, both ways. -/
theorem wireLayoutAndItsInverse : Obligations.WireLayoutAndItsInverse :=
  ⟨fun f => ⟨serialize_list f, decodeWire_serialize f⟩, fun b => ⟨serialize_decodeWire b, rfl, rfl, rfl⟩⟩

/-- Settles O25: the decoded frame is the locally made one, whose data field is the payload and then pad bytes. -/
theorem roundTripAndPadding : Obligations.RoundTripAndPadding := by
  intro length p h
  refine ⟨_, encodeFrame_of_le h, ?_⟩
  rw [decodeWire_serialize]
  show length = length ∧ (pad p h).list.take p.length = p ∧ crcOk (makeFrame length (pad p h)) = true ∧
    (∀ x ∈ (pad p h).list.drop p.length, x = 0xFF#8) ∧ (pad p h).list.length = 16
  rw [pad_list, List.take_left, List.drop_left]
  exact ⟨rfl, rfl, crcOk_makeFrame _ _, fun _ hx => List.eq_of_mem_replicate hx, (pad p h).size⟩

/-- Settles O26: both recognizers are `controlShape`, which is one equation on the length and one on the data. -/
theorem recognizersTestLengthAndData : Obligations.RecognizersTestLengthAndData := fun f =>
  ⟨controlShape_iff ackData0 f, controlShape_iff retxData0 f, fun ⟨ha, hr⟩ => by simp [isAck_not_isRetx ha] at hr⟩

/-- Settles O29: the response of each is a function of the operands; for ENCODE and DECODE in each case of their length check. -/
theorem pureCommandsReadNoState : Obligations.PureCommandsReadNoState := by
  rintro length bytes i (rfl | rfl | rfl)
  · exact ⟨_, exec_crc8 length bytes⟩
  · rcases Nat.lt_or_ge 16 bytes.length with h | h
    · exact ⟨_, fun _ => exec_encode_of_gt h⟩
    · exact ⟨_, fun _ => exec_encode_of_le h⟩
  · by_cases h : bytes.length = 18
    · exact ⟨_, fun _ => exec_decode_of_length h⟩
    · exact ⟨_, fun _ => exec_decode_of_ne h⟩

/-- Settles O49: the two tables, row by row. -/
theorem codesAreTheTablesNumbers : Obligations.CodesAreTheTablesNumbers :=
  ⟨fun x => by cases x <;> rfl, fun x => by cases x <;> rfl⟩

end Sys2Proof.Machine
end

section
/-! PROOFS. What the checksum detects (40_checksum.md R83). -/

namespace Sys2Proof.Machine

/-- R83 item 1 from any two registers. -/
theorem foldl_crc8Step_zipWith_xor (u v : List Byte) (h : u.length = v.length) (r r' : Byte) :
    (List.zipWith (fun x y => x ^^^ y) u v).foldl crc8Step (r ^^^ r') = u.foldl crc8Step r ^^^ v.foldl crc8Step r' := by
  induction u generalizing v r r' with
  | nil => cases v with
    | nil => rfl
    | cons y v => cases h
  | cons x u ih => cases v with
    | nil => cases h
    | cons y v =>
      rw [List.zipWith_cons_cons, List.foldl_cons, List.foldl_cons, List.foldl_cons, crc8Step_xor]
      exact ih v (Nat.succ.inj h) _ _

/-- Settles O19: the byte step is linear, so the fold is, and both sums start at 0, which is the exclusive-or of 0 and 0. -/
theorem checksumIsLinear : Obligations.ChecksumIsLinear := fun u v h => foldl_crc8Step_zipWith_xor u v h crcInit crcInit

/-- The byte step gives 0 only where the byte equals the register. -/
theorem crc8Step_eq_zero_iff (r b : Byte) : crc8Step r b = 0#8 ↔ r = b := by
  constructor
  · exact fun h => BitVec.xor_eq_zero_iff.mp (crcBits_eight_eq_zero _ h)
  · rintro rfl
    rw [crc8Step, BitVec.xor_self]
    decide

theorem set_byteAt (b : Wire) (i : Fin 18) : b.list.set i (byteAt b i) = b.list := List.set_getElem_self _

/-- A crc is valid where the checksum of all 18 bytes is 0. -/
theorem crcOk_iff_checksum_eq_zero (b : Wire) : crcOk (decodeWire b) = true ↔ checksum b.list = 0#8 := by
  have hlast : b.list = b.list.take 17 ++ [byteAt b 17] := by
    obtain ⟨l, hl⟩ := b
    match l, hl with
    | [_, _, _, _, _, _, _, _, _, _, _, _, _, _, _, _, _, _], _ => rfl
  have hsum : checksum b.list = crc8Step (checksum (b.list.take 17)) (byteAt b 17) := by
    conv => lhs; rw [hlast]
    exact checksum_append _ _
  rw [crcOk_decodeWire, beq_iff_eq, hsum, crc8Step_eq_zero_iff]

/-- What stands in one place can be told from the checksum: no later step takes the difference away. -/
theorem eq_of_checksum_set_eq {l : List Byte} {i : Nat} {x y : Byte} (hi : i < l.length)
    (h : checksum (l.set i x) = checksum (l.set i y)) : x = y := by
  simp only [List.set_eq_take_append_cons_drop, hi, if_true, checksum_append, List.foldl_cons] at h
  exact crc8Step_right_injective (foldl_crc8Step_injective _ h)

theorem crcOk_withError {b : Wire} {i : Fin 18} {e : Byte} (hb : crcOk (decodeWire b) = true) (he : e ≠ 0#8) :
    crcOk (decodeWire (withError b i e)) = false := by
  by_contra hok
  rw [Bool.not_eq_false, crcOk_iff_checksum_eq_zero] at hok
  have hsame : checksum (b.list.set i (byteAt b i ^^^ e)) = checksum (b.list.set i (byteAt b i)) := by
    rw [set_byteAt, (crcOk_iff_checksum_eq_zero b).mp hb]
    exact hok
  have hi : i.val < b.list.length := by rw [b.size]; exact i.isLt
  have hxor : byteAt b i ^^^ e = byteAt b i ^^^ 0#8 := by rw [BitVec.xor_zero]; exact eq_of_checksum_set_eq hi hsame
  exact he ((BitVec.xor_right_inj _).mp hxor)

theorem classify_withError {b : Wire} {i : Fin 18} {e : Byte} (hb : crcOk (decodeWire b) = true) (he : e ≠ 0#8) :
    classify (withError b i e) = .crcFailed :=
  (classOf_eq_crcFailed_iff _).mpr (crcOk_withError hb he)

/-- Settles O20: the checksum of all 18 bytes is 0 for a valid frame, and a change of one byte changes it, since no byte step takes a
difference away. -/
theorem everySingleByteErrorIsDetected : Obligations.EverySingleByteErrorIsDetected := fun _ _ _ hb he =>
  decodeFrame_of_crcFailed (classify_withError hb he)

/-- Settles O21: in the frame of 18 zero bytes, flipping bit 0 of the last data byte and repairing the crc byte (7, the checksum of a last
byte 1) gives another data frame. -/
theorem twoByteErrorsCanEscape : Obligations.TwoByteErrorsCanEscape :=
  ⟨⟨List.replicate 18 0#8, rfl⟩, 16, 17, 0x01#8, 0x07#8, by decide +kernel⟩

end Sys2Proof.Machine
end

section
/-! PROOFS. The Receive Reassembler: a drain is the run of the stream's frames, chunks one after another, and what one feed does at most one
frame's length, in either mode (42_reassembler.md R111 to R115). -/

namespace Sys2Proof.Machine

variable {length x : Byte} {c d : List Byte} {b : Wire} {s t : State}

/-! ### DRAIN_ALL on the whole stream -/

theorem feed_of_drainAll (hm : s.params.reassemblyMode = .drainAll) : feed c s = drainAll c s := by
  rw [feed, hm]

theorem setAcc_of_acc_eq {v : List Byte} (h : s.st.acc = v) : s.setAcc v = s := by rw [← h]; rfl

/-- R112 with 20_memory.md R44: from at most 17 bytes, the byte-by-byte loop runs the frames of the stream in order; what remains after the
last whole frame stays accumulated, unless a fault ended the loop. -/
theorem drainAll_eq_runFrames (hacc : s.st.acc.length ≤ 17) (hf : s.st.fault = .none)
    (ht : runFrames (streamFrames (s.st.acc ++ c)) (s.setAcc []) = t) :
    drainAll c s = if t.st.fault = .none then t.setAcc (streamRest (s.st.acc ++ c)) else t := by
  induction c generalizing s with
  | nil =>
    rw [List.append_nil, streamFrames_of_short hacc, runFrames_nil] at ht
    have hgood : t.st.fault = .none := ht ▸ hf
    rw [List.append_nil, streamRest_of_short hacc, if_pos hgood, ← ht]
    rfl
  | cons x c ih =>
    rw [List.append_cons] at ht ⊢
    by_cases hl : (s.st.acc ++ [x]).length = 18
    · have hempty : (processFrame ⟨_, hl⟩ (s.setAcc [])).st.acc = [] := processFrame_acc _ _
      rw [streamFrames_append ⟨_, hl⟩, runFrames_cons] at ht
      rw [streamRest_append ⟨_, hl⟩, drainAll_cons_full hl]
      by_cases hgood : (processFrame ⟨_, hl⟩ (s.setAcc [])).st.fault = .none
      · rw [if_pos hgood] at ht ⊢
        have htail := ih (s := processFrame ⟨_, hl⟩ (s.setAcc [])) (by rw [hempty]; exact Nat.zero_le _) hgood
        rw [hempty, setAcc_of_acc_eq hempty] at htail
        exact htail ht
      · rw [if_neg hgood] at ht ⊢
        rw [← ht, if_neg hgood]
    · have hlen : s.st.acc.length + 1 ≠ 18 := by simpa using hl
      have hle : (s.setAcc (s.st.acc ++ [x])).st.acc.length ≤ 17 := by
        simp only [State.setAcc_st, List.length_append, List.length_singleton]; omega
      rw [drainAll_cons_short hlen]
      exact ih hle hf ht

/-- Settles O30: RX_CHUNK is a feed, a feed is here a drain, and a drain runs the frames of the stream. -/
theorem rxChunkDrainsEveryFrame : Obligations.RxChunkDrainsEveryFrame := by
  intro length c s t hc hf hm hacc ht
  have hdrain := drainAll_eq_runFrames hacc hf ht.symm
  rw [← feed_of_drainAll hm] at hdrain
  refine ⟨fun hgood => ?_, fun hbad => ?_⟩
  · rw [if_pos hgood] at hdrain
    rw [exec_rxChunk_eq_feed hc hf, hdrain, State.setAcc_st, if_pos hgood]
    rfl
  · rw [if_neg hbad] at hdrain
    rw [exec_rxChunk_eq_feed hc hf, hdrain, if_neg hbad]

/-- A faulted block refuses a chunk (60_exceptions.md R154). -/
theorem exec_rxChunk_of_fault (hc : c ≠ []) (hf : s.st.fault ≠ .none) :
    exec (.rxChunk length c) s = .next { s with response := some ⟨.blockFaulted, .none⟩ } := by
  show execRxChunk length c s = _
  rcases execRxChunk_cases length c s with ⟨h, -⟩ | ⟨-, -, e⟩ | ⟨-, h, -⟩ | ⟨-, h, -⟩
  · exact absurd h hc
  · exact e
  · exact absurd h hf
  · exact absurd h hf

/-- Settles O47: both commands test the fault register before they do anything else (R160). -/
theorem faultedBlockRefusesLinkTraffic : Obligations.FaultedBlockRefusesLinkTraffic := fun _ _ _ hf =>
  ⟨fun hc => exec_rxChunk_of_fault hc hf, exec_sendPayload_of_fault hf⟩

/-! ### Chunks one after another -/

/-- An RX_CHUNK that leaves no fault was a feed of an unfaulted block. -/
theorem exec_rxChunk_unfaulted (hc : c ≠ []) (he : exec (.rxChunk length c) s = .next t) (ht : t.st.fault = .none) :
    s.st.fault = .none ∧ (feed c s).st.fault = .none ∧ t = { feed c s with response := some ⟨.ok, .none⟩ } := by
  rcases execRxChunk_cases length c s with ⟨h, -⟩ | ⟨-, hf, e⟩ | ⟨-, hf, hg, e⟩ | ⟨-, -, hg, e⟩
  · exact absurd h hc
  · rw [exec, e] at he; cases he; exact absurd ht hf
  · rw [exec, e] at he; cases he; exact ⟨hf, hg, rfl⟩
  · rw [exec, e] at he; cases he; exact absurd ht hg

/-- Settles O32: both sides are drains, and a drain of two chunks is the drain of one after the other; the first chunk's response, which is
all that tells `t` from the state between them, is neither read by a drain nor left after the second chunk. -/
theorem chunkingDoesNotMatter : Obligations.ChunkingDoesNotMatter := by
  intro length c d s t hc hd hm he ht
  obtain ⟨hf, hg, rfl⟩ := exec_rxChunk_unfaulted hc he ht
  have hm' : (feed c s).params.reassemblyMode = .drainAll := by rw [feed_params]; exact hm
  have hboth : feed (c ++ d) s = feed d (feed c s) := by
    rw [feed_of_drainAll hm, feed_of_drainAll hm', feed_of_drainAll hm, drainAll_append c d s hf, if_pos]
    rwa [← feed_of_drainAll hm]
  have hresp : feed d { feed c s with response := some ⟨.ok, .none⟩ } = { feed d (feed c s) with response := some ⟨.ok, .none⟩ } := by
    rw [feed_of_drainAll hm', feed_of_drainAll (s := { feed c s with response := some ⟨.ok, .none⟩ }) hm']
    exact (unread_response _).drainAll d (feed c s)
  rw [exec_rxChunk_eq_feed (by simp [hc]) hf, exec_rxChunk_eq_feed hd ht, hboth, hresp]

/-! ### At most one frame's bytes, in either mode -/

/-- ACC_CAPACITY in its domain holds at least one frame (R10). -/
theorem capacity_ge {n : Nat} (hp : s.params.inDomain = true) (hn : s.params.accCapacity = some n) : 18 ≤ n := by
  simp only [Params.inDomain, hn, Option.all_some, Bool.and_eq_true, decide_eq_true_eq] at hp
  exact hp.1.1

theorem drainAll_of_short (h : s.st.acc.length + c.length ≤ 17) (hf : s.st.fault = .none) :
    drainAll c s = s.setAcc (s.st.acc ++ c) := by
  have hlen : (s.st.acc ++ c).length ≤ 17 := by rw [List.length_append]; exact h
  have hnone : runFrames (streamFrames (s.st.acc ++ c)) (s.setAcc []) = s.setAcc [] := by
    rw [streamFrames_of_short hlen, runFrames_nil]
  rw [drainAll_eq_runFrames (by omega) hf hnone, streamRest_of_short hlen, State.setAcc_st, if_pos hf, setAcc_setAcc]

/-- Settles O34: the stream holds no whole frame, so the drain runs none and keeps all its bytes. -/
theorem rxChunkWithoutAFrameOnlyAppends : Obligations.RxChunkWithoutAFrameOnlyAppends := by
  intro length c s hc hf hm hlen
  have hfeed : feed c s = s.setAcc (s.st.acc ++ c) := by rw [feed_of_drainAll hm, drainAll_of_short hlen hf]
  rw [exec_rxChunk_eq_feed hc hf, hfeed, State.setAcc_st, if_pos hf]
  rfl

section
variable (hf : s.st.fault = .none) (hp : s.params.inDomain = true)
include hf hp

/-- Bytes that complete no frame are appended. -/
theorem feed_of_short (h : s.st.acc.length + c.length ≤ 17) : feed c s = s.setAcc (s.st.acc ++ c) := by
  cases hm : s.params.reassemblyMode with
  | drainAll => rw [feed_of_drainAll hm, drainAll_of_short h hf]
  | onePerFeed =>
    have hcap : ∀ n, s.params.accCapacity = some n → s.st.acc.length + c.length ≤ n := fun n hn => by
      have := capacity_ge hp hn
      omega
    rw [feed_of_onePerFeed hm, onePerFeed_of_short hcap (by omega)]

/-- Bytes that complete exactly one frame run it, at a frame boundary. -/
theorem feed_of_frame (h : s.st.acc ++ c = b.list) (hacc : s.st.acc.length ≤ 17) : feed c s = processFrame b (s.setAcc []) := by
  have hlen : s.st.acc.length + c.length = 18 := by rw [← List.length_append, h, b.size]
  cases hm : s.params.reassemblyMode with
  | drainAll =>
    have hempty : (processFrame b (s.setAcc [])).st.acc = [] := processFrame_acc _ _
    have hone : runFrames (streamFrames (s.st.acc ++ c)) (s.setAcc []) = processFrame b (s.setAcc []) := by
      have hframes : streamFrames b.list = [b] := by simpa [streamFrames] using streamFrames_append b []
      rw [h, hframes, runFrames_cons, runFrames_nil, ite_self]
    have hrest : streamRest b.list = [] := by simpa [streamRest] using streamRest_append b []
    rw [feed_of_drainAll hm, drainAll_eq_runFrames hacc hf hone, h, hrest, setAcc_of_acc_eq hempty, ite_self]
  | onePerFeed =>
    have hcap : ∀ n, s.params.accCapacity = some n → s.st.acc.length + c.length ≤ n := fun n hn => by
      have := capacity_ge hp hn
      omega
    obtain ⟨b', hb', e⟩ := onePerFeed_of_frame hcap hlen.ge
    have hwhole : b'.list = b.list := by rw [hb', h, List.take_of_length_le b.size.le]
    rw [feed_of_onePerFeed hm, e, h, List.drop_of_length_le b.size.le, Bytes.eq_of_list hwhole]

end

/-- A whole frame at a frame boundary is one frame to process. -/
theorem feed_of_boundary (hf : s.st.fault = .none) (hp : s.params.inDomain = true) (hacc : s.st.acc = []) :
    feed b.list s = processFrame b s := by
  rw [feed_of_frame hf hp (b := b) (by rw [hacc]; rfl) (by rw [hacc]; exact Nat.zero_le _), setAcc_of_acc_eq hacc]

theorem wire_ne_nil (b : Wire) : b.list ≠ [] := fun h => by
  have := b.size
  rw [h] at this
  cases this

/-- The rest of a frame whose first bytes stand accumulated: the frame is processed as at a frame boundary, whatever was answered so far. -/
theorem feed_rest_of_frame (hf : s.st.fault = .none) (hp : s.params.inDomain = true) (hacc : s.st.acc = []) {k : Nat} (hk : k < 18)
    (r : Option Response) :
    feed (b.list.drop k) { s.setAcc (b.list.take k) with response := r } = { processFrame b s with response := r } := by
  have hle : (b.list.take k).length ≤ 17 := (List.length_take_le k b.list).trans (by omega)
  have hstart : State.setAcc [] { s.setAcc (b.list.take k) with response := r } = { s with response := r } :=
    congrArg (fun u : State => { u with response := r }) (setAcc_of_acc_eq hacc)
  rw [feed_of_frame (s := { s.setAcc (b.list.take k) with response := r }) hf hp (List.take_append_drop k b.list) hle, hstart]
  exact (unread_response r).processFrame b s

/-- Settles O35: the first chunk is too short for a frame and is appended; with the second the accumulator holds the very frame, which is
processed as it is when it comes whole. -/
theorem splitFrameIsTheSameFrame : Obligations.SplitFrameIsTheSameFrame := by
  intro length b k s hk0 hk18 hacc hf hp
  have hlen : (b.list.take k).length = k := by rw [List.length_take, b.size]; omega
  have htake : b.list.take k ≠ [] := List.ne_nil_of_length_pos (by omega)
  have hdrop : b.list.drop k ≠ [] := List.ne_nil_of_length_pos (by rw [List.length_drop, b.size]; omega)
  refine ⟨{ s.setAcc (b.list.take k) with response := some ⟨.ok, .none⟩ }, ?_, rfl, ?_⟩
  · have hfirst : feed (b.list.take k) s = s.setAcc (b.list.take k) := by
      rw [feed_of_short hf hp (by rw [hacc, hlen, List.length_nil]; omega), hacc, List.nil_append]
    rw [exec_rxChunk_eq_feed htake hf, hfirst, State.setAcc_st, if_pos hf]
  · have hrest := exec_rxChunk_eq_feed (length := length)
      (s := { s.setAcc (b.list.take k) with response := some ⟨.ok, .none⟩ }) hdrop hf
    rw [feed_rest_of_frame hf hp hacc hk18] at hrest
    rw [exec_rxChunk_eq_feed (wire_ne_nil b) hf, feed_of_boundary hf hp hacc]
    exact hrest

/-! ### One byte at a time -/

/-- The same machine with another extraction mode. -/
def State.withMode (m : ReassemblyMode) (s : State) : State := { s with params := { s.params with reassemblyMode := m } }

/-- A frame does not read the extraction mode. -/
theorem unread_withMode (m : ReassemblyMode) : Unread (State.withMode m) :=
  ⟨fun _ => rfl, fun _ => rfl, fun _ => rfl, fun _ => rfl, fun _ _ _ => rfl⟩

/-- One byte completes no frame or exactly one, and either way a feed goes through a change of the mode. -/
theorem feed_singleton_withMode (m : ReassemblyMode) (hf : s.st.fault = .none) (hp : s.params.inDomain = true)
    (hacc : s.st.acc.length ≤ 17) : feed [x] (s.withMode m) = (feed [x] s).withMode m := by
  by_cases hl : (s.st.acc ++ [x]).length = 18
  · rw [feed_of_frame (s := s.withMode m) hf hp (b := ⟨_, hl⟩) rfl hacc, feed_of_frame hf hp (b := ⟨_, hl⟩) rfl hacc]
    exact (unread_withMode m).processFrame _ (s.setAcc [])
  · have hshort : s.st.acc.length + [x].length ≤ 17 := by
      rw [List.length_append] at hl
      rw [List.length_singleton] at hl ⊢
      omega
    rw [feed_of_short (s := s.withMode m) hf hp hshort, feed_of_short hf hp hshort]
    rfl

/-- Settles O33: a faulted block refuses the byte in both modes; otherwise the feed goes through the change of the mode, and the response is
read off the fault register, which the mode is no part of. -/
theorem byteSerialDeliveryHidesTheMode : Obligations.ByteSerialDeliveryHidesTheMode := by
  intro length x s t hacc hp hm he
  have hx : [x] ≠ [] := List.cons_ne_nil x []
  show exec (.rxChunk length [x]) (s.withMode .onePerFeed) = .next (t.withMode .onePerFeed)
  by_cases hf : s.st.fault = .none
  · rw [exec_rxChunk_eq_feed hx hf] at he
    rw [exec_rxChunk_eq_feed (s := s.withMode .onePerFeed) hx hf, feed_singleton_withMode .onePerFeed hf hp hacc]
    cases he
    rfl
  · rw [exec_rxChunk_of_fault hx hf] at he
    rw [exec_rxChunk_of_fault (s := s.withMode .onePerFeed) hx hf]
    cases he
    rfl

end Sys2Proof.Machine
end

section
/-! PROOFS. The command port: who moves, in which order commands are taken, and the RECEIVE_NEXT of a waiting agent (20_memory.md R49 to R51,
44_payload_queue.md R141 to R143). -/

namespace Sys2Proof.Machine

variable {a b : Agent} {c : Command} {rs others : List Request} {rest : List Turn} {s t : State}

/-! ### The turn of an agent -/

theorem settle_of_hold (h : t.response = none) : settle a others t = t := by rw [settle, h]

theorem settle_of_response {r : Response} (h : t.response = some r) :
    settle a others t = { t with requests := others, responses := t.responses ++ [(a, r)] } := by rw [settle, h]

/-- Settles O8: the turn is `exec` of the decoded command and then `settle`, whose two cases are the two clauses. -/
theorem stepRunsTheDecodedCommand : Obligations.StepRunsTheDecodedCommand := by
  intro s a rest c others hs hr
  obtain ⟨t, he⟩ := exec_total (decodeCommand c) { s with schedule := rest }
  have hstep := step_of_command hs hr he
  exact ⟨t, he, fun hnone => by rw [hstep, settle_of_hold hnone], fun r hresp => by rw [hstep, settle_of_response hresp]⟩

/-- Settles O9: no turn is no step, and an agent with nothing outstanding has nothing to take. -/
theorem noCommandNoEffect : Obligations.NoCommandNoEffect :=
  ⟨fun _ => step_of_no_turn, fun _ _ _ hs hr => step_of_idle_agent hs (takeRequest_none hr)⟩

/-! ### The order in which commands are taken -/

theorem takeRequest_cons_self (a : Agent) (c : Command) (rs : List Request) : takeRequest a (⟨a, c⟩ :: rs) = some (c, rs) := by
  simp [takeRequest]

theorem takeRequest_cons_of_ne {r : Request} (h : r.agent ≠ a) (rs : List Request) :
    takeRequest a (r :: rs) = (takeRequest a rs).map (fun p => (p.1, r :: p.2)) := by
  rw [takeRequest, if_neg h]

/-- Requests of other agents in front of an agent's command are passed over and stay. -/
theorem takeRequest_append {before : List Request} (h : ∀ r ∈ before, r.agent ≠ a) (c : Command) (after : List Request) :
    takeRequest a (before ++ ⟨a, c⟩ :: after) = some (c, before ++ after) := by
  induction before with
  | nil => exact takeRequest_cons_self a c after
  | cons r before ih =>
    rw [List.cons_append, takeRequest_cons_of_ne (h r List.mem_cons_self), ih (fun x hx => h x (List.mem_cons_of_mem r hx))]
    rfl

/-- What is taken stood behind requests of other agents only. -/
theorem takeRequest_splits (h : takeRequest a rs = some (c, others)) :
    ∃ before after, rs = before ++ ⟨a, c⟩ :: after ∧ (∀ r ∈ before, r.agent ≠ a) ∧ others = before ++ after := by
  induction rs generalizing others with
  | nil => cases h
  | cons r rs ih =>
    by_cases ha : r.agent = a
    · obtain ⟨agent, command⟩ := r
      cases ha
      rw [takeRequest_cons_self] at h
      cases h
      exact ⟨[], rs, rfl, by simp, rfl⟩
    · rw [takeRequest_cons_of_ne ha, Option.map_eq_some_iff] at h
      obtain ⟨⟨c', o⟩, hp, e⟩ := h
      cases e
      obtain ⟨before, after, rfl, hb, rfl⟩ := ih hp
      exact ⟨r :: before, after, rfl, List.forall_mem_cons.mpr ⟨ha, hb⟩, rfl⟩

/-- Settles O10: by recursion along the outstanding commands, each way. -/
theorem agentsKeepTheirIssueOrder : Obligations.AgentsKeepTheirIssueOrder := by
  intro a rs others c
  constructor
  · exact takeRequest_splits
  · rintro ⟨before, after, rfl, hb, rfl⟩
    exact takeRequest_append hb c after

/-! ### Holds -/

/-- The command an agent's turn would take. -/
def State.firstCommand (a : Agent) (s : State) : Option Command := (takeRequest a s.requests).map (fun p => p.1)

/-- R28: an agent is held while its first command is RECEIVE_NEXT and nothing is pending. -/
theorem State.held_iff : s.held a = true ↔ (∃ c, s.firstCommand a = some c ∧ c.op = opReceiveNext) ∧ s.st.pending = [] := by
  unfold State.held State.firstCommand
  cases takeRequest a s.requests <;> simp

theorem decodeCommand_of_receiveNext (h : c.op = opReceiveNext) : decodeCommand c = .receiveNext c.length c.bytes := by
  obtain ⟨op, l, bytes⟩ := c
  cases h
  exact Laws.RoundTrip.receiveNext l bytes rfl

/-- A held agent's turn is used up and gives no response (log 5). -/
theorem step_of_held (hheld : s.held a = true) (hs : s.schedule = .agent a :: rest) :
    step s = .next { s with schedule := rest, response := none } := by
  obtain ⟨⟨c, hc, hop⟩, hp⟩ := State.held_iff.mp hheld
  obtain ⟨⟨c', others⟩, hr, rfl⟩ := Option.map_eq_some_iff.mp hc
  have he : exec (decodeCommand c') { s with schedule := rest } = .next { s with schedule := rest, response := none } := by
    rw [decodeCommand_of_receiveNext hop]
    exact exec_receiveNext_of_nil (s := { s with schedule := rest }) hp
  rw [step_of_command hs hr he, settle_of_hold rfl]

/-- The commands of one agent are not in the way of another's. -/
theorem takeRequest_filter (h : b ≠ a) (rs : List Request) :
    (takeRequest b (rs.filter (fun r => r.agent ≠ a))).map (fun p => p.1) = (takeRequest b rs).map (fun p => p.1) := by
  induction rs with
  | nil => rfl
  | cons r rs ih =>
    by_cases ha : r.agent = a
    · have hb : r.agent ≠ b := fun e => h (e.symm.trans ha)
      rw [List.filter_cons_of_neg (by simpa using ha), ih, takeRequest_cons_of_ne hb, Option.map_map]
      rfl
    · rw [List.filter_cons_of_pos (by simpa using ha)]
      by_cases hb : r.agent = b
      · simp [takeRequest, hb]
      · rw [takeRequest_cons_of_ne hb, takeRequest_cons_of_ne hb, Option.map_map, Option.map_map]
        exact ih

/-- Settles O44: the held command runs and holds again; taking another agent's command passes over the held agent's. -/
theorem heldConsumerWaitsWithoutBlocking : Obligations.HeldConsumerWaitsWithoutBlocking := fun s _ _ hheld hs =>
  ⟨step_of_held hheld hs, fun _ hb => (takeRequest_filter hb s.requests).symm⟩

/-- While an agent is held, a step leaves its first command the first: its own turn takes nothing, another's takes no command of it. -/
theorem step_firstCommand_of_held (hheld : s.held a = true) (hstep : step s = .next t) : t.firstCommand a = s.firstCommand a := by
  rcases step_cases hstep with ⟨-, rfl⟩ | ⟨rest, -, rfl⟩ | ⟨b, rest, -, -, rfl⟩ | ⟨b, rest, c, others, u, hs, hr, hu, rfl⟩
  · rfl
  · rfl
  · rfl
  · by_cases hb : b = a
    · subst hb
      rw [← Host.Outcome.next.inj ((step_of_held hheld hs).symm.trans hstep)]
      rfl
    · have hreq : u.requests = s.requests :=
        exec_requests (s := { s with schedule := rest }) (fun f e => absurd e (decodeCommand_ne_frameData c f)) hu
      rcases settle_cases b others u with ⟨-, e⟩ | ⟨r, -, e⟩ <;> rw [e]
      · rw [State.firstCommand, hreq, State.firstCommand]
      · exact takeRequest_of_other hb hr

/-- Settles O45: the held agent's first command is still the first, so only a frame pending can have lifted the hold. -/
theorem onlyAPushLiftsAHold : Obligations.OnlyAPushLiftsAHold := by
  intro s t a hheld hstep hfree
  obtain ⟨hfirst, hp⟩ := State.held_iff.mp hheld
  refine ⟨hp, fun hempty => ?_⟩
  have hagain : t.held a = true := State.held_iff.mpr ⟨by rwa [step_firstCommand_of_held hheld hstep], hempty⟩
  exact absurd hagain (by simp [hfree])

/-- Settles O1: a reset turn is `resetEvent`, which writes `st` alone; with the queue emptied an agent held before is held after. -/
theorem resetSetsEveryElement : Obligations.ResetSetsEveryElement := by
  intro s rest hs
  refine ⟨⟨_, step_of_reset hs, rfl, ackFrame_list, rfl, rfl, rfl, rfl, fun a hheld => ?_⟩, rfl, ackFrame_list, rfl, rfl, rfl⟩
  obtain ⟨hfirst, -⟩ := State.held_iff.mp hheld
  exact State.held_iff.mpr ⟨hfirst, rfl⟩

/-! ### At most one RECEIVE_NEXT per agent -/

/-- Of two RECEIVE_NEXT of one agent, the first would not be its agent's last command. -/
theorem ReceiveIsLast.length_le_one (h : ReceiveIsLast rs) (hall : ∀ r ∈ rs, r.agent = a ∧ r.command.op = opReceiveNext) :
    rs.length ≤ 1 := by
  match rs with
  | [] => exact Nat.zero_le 1
  | [_] => exact Nat.le_refl 1
  | r :: later :: l =>
    obtain ⟨hr, hop⟩ := hall r List.mem_cons_self
    obtain ⟨hlater, -⟩ := hall later (List.mem_cons_of_mem r List.mem_cons_self)
    exact absurd (hlater.trans hr.symm) (List.rel_of_pairwise_cons h List.mem_cons_self hop)

/-- A command of an agent that does not wait may stand last. -/
theorem ReceiveIsLast.concat (h : ReceiveIsLast s.requests) (hw : s.waiting a = false) (c : Command) :
    ReceiveIsLast (s.requests ++ [⟨a, c⟩]) := by
  refine List.pairwise_append.mpr ⟨h, List.pairwise_singleton _ _, fun r hr later hl hop hagent => ?_⟩
  cases List.mem_singleton.mp hl
  have hwait : s.waiting a = true := (State.waiting_iff s a).mpr ⟨r, hr, hagent.symm, hop⟩
  exact absurd hwait (by simp [hw])

theorem issue_inv (h : s.Inv) (a : Agent) (c : Command) : (s.issue a c).Inv := by
  cases hw : s.waiting a with
  | true => rw [State.issue_of_waiting s c hw]; exact h
  | false =>
    obtain ⟨hsound, hacc, hreq⟩ := State.inv_iff.mp h
    rw [State.issue_of_not_waiting s c hw]
    exact State.inv_iff.mpr ⟨{ hsound with }, { hacc with }, hreq.concat hw c⟩

/-- Settles O55: the agent's outstanding RECEIVE_NEXT are a part of the list in which each is its agent's last; issuing tests for one. -/
theorem atMostOneReceivePerAgent : Obligations.AtMostOneReceivePerAgent := by
  refine fun s a h => ⟨?_, fun c => ⟨fun hone => ?_, fun hnone => ?_, issue_inv h a c⟩⟩
  · exact ReceiveIsLast.length_le_one (h.oneReceive.filter _) fun r hr => of_decide_eq_true (List.mem_filter.mp hr).2
  · exact State.issue_of_waiting s c ((State.waiting_iff s a).mpr hone)
  · refine State.issue_of_not_waiting s c (Bool.eq_false_iff.mpr fun hw => ?_)
    obtain ⟨r, hr, hagent, hop⟩ := (State.waiting_iff s a).mp hw
    exact hnone r hr hagent hop

end Sys2Proof.Machine
end

section
/-! PROOFS. The queue and the fault register along the instructions (44_payload_queue.md R141, R142; 10_state.md R26; 60_exceptions.md R154),
and the replay of a sent frame (43_link_controller.md R124). -/

namespace Sys2Proof.Machine

variable {i : Instr} {s t : State}

/-- Settles O42: RECEIVE_NEXT's two cases. -/
theorem receiveNextPopsOrHolds : Obligations.ReceiveNextPopsOrHolds := fun _ _ _ =>
  ⟨fun _ _ h => exec_receiveNext_of_cons h, exec_receiveNext_of_nil⟩

/-- Settles O41: sending makes the frame `st.lastSent`, which is what FRAME_RETX writes again. -/
theorem sentFrameIsReplayedUnchanged : Obligations.SentFrameIsReplayedUnchanged := by
  intro length p s hf hp
  have hb := encodeFrame_of_le (length := length) hp
  exact ⟨_, _, _, hb, exec_sendPayload_of_encode hf hb, exec_frameRetx _, List.append_assoc _ _ _, rfl⟩

/-! ### The queue -/

theorem accept_pending_prefix (f : Frame) (s : State) : s.st.pending <+: (accept f s).st.pending := by
  rcases accept_cases f s with ⟨-, e⟩ | ⟨-, e⟩ <;> rw [e]
  · exact List.prefix_append _ _
  · rw [raiseFault_pending]

theorem processFrame_pending_prefix (b : Wire) (s : State) : s.st.pending <+: (processFrame b s).st.pending := by
  rcases processFrame_cases b s with ⟨-, e⟩ | ⟨-, e⟩ | ⟨-, e⟩ | ⟨-, -, -, -, e⟩ <;> rw [e]
  · rw [onCrcFailed_pending]
  · exact List.prefix_rfl
  · exact List.prefix_rfl
  · exact accept_pending_prefix _ (s.setRetxCount 0)

theorem feed_pending_prefix (c : List Byte) (s : State) : s.st.pending <+: (feed c s).st.pending :=
  feed_induction (P := fun u => s.st.pending <+: u.st.pending)
    (fun _ _ h => h)
    (fun b u h => h.trans (processFrame_pending_prefix b u))
    (fun u _ _ h => by rwa [raiseFault_pending])
    c s List.prefix_rfl

/-- Settles O43: of all an instruction can do, only a pop takes a frame away, and that is RECEIVE_NEXT responding with it. -/
theorem pendingIsAFifo : Obligations.PendingIsAFifo := by
  intro i s t he
  cases exec_effect he with
  | feed l c r => exact .inl (feed_pending_prefix c s)
  | send l p b => exact .inl List.prefix_rfl
  | pop l c f rest hp => exact .inr ⟨l, c, f, rfl, hp, rfl⟩
  | answer i r => exact .inl List.prefix_rfl
  | retx => exact .inl List.prefix_rfl
  | ack => exact .inl List.prefix_rfl
  | crcFailed f => exact .inl (by rw [onCrcFailed_pending])
  | data f => exact .inl (accept_pending_prefix f (s.setRetxCount 0))

/-! ### The first fault -/

section
variable (hf : s.st.fault ≠ .none)
include hf

theorem onCrcFailed_fault : (onCrcFailed s).st.fault = s.st.fault := by
  rcases onCrcFailed_cases s with ⟨-, e⟩ | ⟨_, -, -, e⟩ | ⟨-, e⟩ <;> rw [e]
  · rfl
  · rfl
  · rw [raiseFault_of_fault hf]

theorem accept_fault (f : Frame) : (accept f s).st.fault = s.st.fault := by
  rcases accept_cases f s with ⟨-, e⟩ | ⟨-, e⟩ <;> rw [e]
  · rfl
  · rw [raiseFault_of_fault hf]

/-- A faulted block feeds and sends nothing, and the frame rows leave the first fault. -/
theorem exec_fault (he : exec i s = .next t) : t.st.fault = s.st.fault := by
  cases exec_effect he with
  | feed l c r hc hgood => exact absurd hgood hf
  | send l p b hgood => exact absurd hgood hf
  | pop l c f rest => rfl
  | answer i r => rfl
  | retx => rfl
  | ack => rfl
  | crcFailed f => exact onCrcFailed_fault hf
  | data f => exact accept_fault (s := s.setRetxCount 0) hf f

theorem step_fault (hstep : step s = .next t) : t.st.fault = s.st.fault ∨ ∃ rest, s.schedule = .reset :: rest := by
  rcases step_cases hstep with ⟨-, rfl⟩ | ⟨rest, hs, -⟩ | ⟨a, rest, -, -, rfl⟩ | ⟨a, rest, c, others, u, -, -, hu, rfl⟩
  · exact .inl rfl
  · exact .inr ⟨rest, hs⟩
  · exact .inl rfl
  · have hkept : u.st.fault = s.st.fault := exec_fault (s := { s with schedule := rest }) hf hu
    rcases settle_cases a others u with ⟨-, e⟩ | ⟨r, -, e⟩ <;> rw [e] <;> exact .inl hkept

end

/-- Settles O46: no operation but the reset event writes a register that holds a fault. -/
theorem firstFaultStaysUntilReset : Obligations.FirstFaultStaysUntilReset :=
  ⟨fun _ _ _ => exec_fault, fun _ _ => step_fault⟩

/-! ### No bound, no fault -/

/-- No bound on the queue, the accumulator or the retries, and no fault. -/
structure UnboundedGood (s : State) : Prop where
  depth : s.params.pendingDepth = none
  capacity : s.params.accCapacity = none
  limit : s.params.retxLimit = none
  good : s.st.fault = .none

theorem UnboundedGood.onCrcFailed (h : UnboundedGood s) : UnboundedGood (onCrcFailed s) := by
  rw [onCrcFailed_of_unlimited h.limit]
  exact { h with }

theorem UnboundedGood.accept (f : Frame) (h : UnboundedGood s) : UnboundedGood (accept f s) := by
  rw [accept_of_room (by simp [h.depth])]
  exact { h with }

/-- Settles O48: each of the three faults is raised at its own bound, and there is none. -/
theorem defaultParametersNeverFault : Obligations.DefaultParametersNeverFault := fun s t hdepth hcap hlim hf hstep =>
  (step_induction (P := UnboundedGood)
    (hacc := fun _ _ h => { h with })
    (hover := fun _ _ hne h => absurd h.capacity hne)
    (hcount := fun _ h => { h with })
    (hcrc := fun _ h => h.onCrcFailed)
    (hreplay := fun _ h => { h with })
    (haccept := fun f _ _ h => h.accept f)
    (hsend := fun _ _ _ _ _ h => { h with })
    (hpop := fun _ _ _ _ h => { h with })
    (hresp := fun _ _ h => { h with })
    (hport := fun _ _ _ _ h => { h with })
    (hreset := fun _ h => { h with good := rfl })
    s t ⟨hdepth, hcap, hlim, hf⟩ hstep).good

end Sys2Proof.Machine
end

section
/-! PROOFS. The link's invariant, and what the ends share (60_exceptions.md R165, 70_reset_and_hazards.md R172, R181). -/

namespace Sys2Proof.Machine

variable {l l' : Link} {e : LinkEnd} {s t : State}

/-! ### Invariants of both ends -/

theorem Link.Inv.block (h : l.Inv) (e : LinkEnd) : (l.block e).Inv := by
  cases e with
  | a => exact h.invA
  | b => exact h.invB

/-- An end may go on to any state with the invariant that takes no write back. -/
theorem Link.Inv.setBlock (h : l.Inv) (hs : s.Inv) (htx : (l.block e).txLog.length ≤ s.txLog.length) : (l.setBlock e s).Inv := by
  cases e with
  | a => exact { h with invA := hs, takenA := h.takenA.trans htx }
  | b => exact { h with invB := hs, takenB := h.takenB.trans htx }

theorem Link.Inv.issue (h : l.Inv) (e : LinkEnd) (agent : Agent) (c : Command) : (l.issue e agent c).Inv :=
  h.setBlock (issue_inv (h.block e) agent c) (by rw [State.issue_txLog])

theorem setBlock_step_inv (h : l.Inv) {turns : List Turn} (hstep : step { l.block e with schedule := turns } = .next t) :
    (l.setBlock e t).Inv := by
  have hstart : State.Inv { l.block e with schedule := turns } := { h.block e with }
  exact h.setBlock (step_inv hstart hstep) (step_outputsExtend hstep).1.length_le

theorem Link.Inv.takeWrites (h : l.Inv) {n : Nat} (hn : n ≤ (l.onWire e).length) : (l.takeWrites n e).Inv := by
  cases e with
  | a =>
    have hle := h.takenA
    simp only [Link.onWire, List.length_drop] at hn
    exact { h with takenA := show l.takenA + n ≤ l.a.txLog.length by omega }
  | b =>
    have hle := h.takenB
    simp only [Link.onWire, List.length_drop] at hn
    exact { h with takenB := show l.takenB + n ≤ l.b.txLog.length by omega }

/-- Settles O54: an event is made of issuing, steps of an end, and writes taken off the wire, and each keeps the invariant. -/
theorem linkEventsKeepTheInvariant : Obligations.LinkEventsKeepTheInvariant := fun _ _ ev h hstep =>
  link_step_induction (P := Link.Inv) (fun _ e agent c h => h.issue e agent c) (fun _ _ _ _ h hs => setBlock_step_inv h hs)
    (fun _ _ _ hn h => h.takeWrites hn) ev h hstep

/-! ### The ends share nothing but the wire -/

@[simp] theorem Link.setBlock_setBlock (s t : State) : (l.setBlock e s).setBlock e t = l.setBlock e t := by cases e <;> rfl

theorem advance_of_step (h : step s = .next t) : l.advance e s = .next (l.setBlock e t) := by
  rw [Link.advance, h]

/-- Advancing an end leaves its peer. -/
theorem advance_total (l : Link) (e : LinkEnd) (s : State) :
    ∃ l', l.advance e s = .next l' ∧ step s = .next (l'.block e) ∧ l'.block e.peer = l.block e.peer := by
  obtain ⟨t, ht⟩ := step_total s
  exact ⟨_, advance_of_step ht, by rwa [Link.block_setBlock], Link.block_peer_setBlock e t⟩

theorem turn_total (l : Link) (e : LinkEnd) (agent : Agent) :
    ∃ l', l.turn e agent = .next l' ∧ l'.block e.peer = l.block e.peer := by
  obtain ⟨l', h, -, hpeer⟩ := advance_total l e ((l.block e).giveTurn (.agent agent))
  exact ⟨l', h, hpeer⟩

/-- Writes replaced by no bytes are lost. -/
theorem Link.step_lose (l : Link) (e : LinkEnd) (n : Nat) :
    l.step (.noise e n []) = .next (l.takeWrites (min n (l.onWire e).length) e) := rfl

/-- Settles O53: every event of an end writes that end's block alone, and a loss writes the counts of the wire alone. -/
theorem endsShareNothingButTheWire : Obligations.EndsShareNothingButTheWire := by
  refine fun l e => ⟨fun agent c => ?_, fun agent => ?_, ?_, fun agent c => ?_, ?_, fun n => ?_⟩
  · exact ⟨_, rfl, Link.block_peer_setBlock e _⟩
  · exact turn_total l e agent
  · exact advance_total l e (l.block e)
  · obtain ⟨l', h, hpeer⟩ := turn_total (l.issue e agent c) e agent
    exact ⟨l', h, hpeer.trans (Link.block_peer_setBlock e _)⟩
  · obtain ⟨l', h, -, hpeer⟩ := advance_total l e ((l.block e).giveTurn .reset)
    exact ⟨l', h, hpeer⟩
  · exact ⟨_, l.step_lose e n, Link.block_takeWrites _ e .a, Link.block_takeWrites _ e .b⟩

/-! ### A turn given to an agent -/

theorem step_giveTurn {a : Agent} {c : Command} {others : List Request} (hr : takeRequest a s.requests = some (c, others))
    (he : exec (decodeCommand c) s = .next t) : step (s.giveTurn (.agent a)) = .next (settle a others t) :=
  step_of_command (s := s.giveTurn (.agent a)) rfl hr he

/-- Settles O56: the agent's turn runs the outstanding RECEIVE_NEXT, which now pops, and `settle` does the rest. -/
theorem heldReceiveCompletesOnItsTurn : Obligations.HeldReceiveCompletesOnItsTurn := by
  intro l e a c others f rest hr hop hp
  have he := exec_receiveNext_of_cons (l := c.length) (c := c.bytes) hp
  rw [← decodeCommand_of_receiveNext hop] at he
  exact advance_of_step (step_giveTurn hr he)

end Sys2Proof.Machine
end

section
/-! PROOFS. One frame over the wire: what a delivery and a send make of a ready end, and the protocol runs built from them (00_scope.md R1,
70_reset_and_hazards.md R176, R178, 44_payload_queue.md R141). -/

namespace Sys2Proof.Machine

variable {l l' : Link} {e : LinkEnd} {a : Agent} {b w : Wire} {s t : State}

/-! ### A frame and the port -/

theorem processFrame_with_requests (requests : List Request) (b : Wire) (s : State) :
    processFrame b { s with requests := requests } = { processFrame b s with requests := requests } := by
  have hunread : Unread (fun u : State => { u with requests := requests }) :=
    ⟨fun _ => rfl, fun _ => rfl, fun _ => rfl, fun _ => rfl, fun _ _ _ => rfl⟩
  exact hunread.processFrame b s

@[simp] theorem processFrame_requests (b : Wire) (s : State) : (processFrame b s).requests = s.requests := by
  have h := congrArg State.requests (processFrame_with_requests s.requests b s)
  exact h

@[simp] theorem processFrame_responses (b : Wire) (s : State) : (processFrame b s).responses = s.responses := by
  have h := congrArg State.responses ((unread_port s.response s.responses s.requests s.schedule).processFrame b s)
  exact h

@[simp] theorem processFrame_schedule (b : Wire) (s : State) : (processFrame b s).schedule = s.schedule := by
  have h := congrArg State.schedule ((unread_port s.response s.responses s.requests s.schedule).processFrame b s)
  exact h

/-! ### A frame by its class -/

theorem processFrame_of_exec (h : exec (decodeFrame b) s = .next t) : processFrame b s = t :=
  Host.Outcome.next.inj ((exec_decodeFrame b s).symm.trans h)

theorem processFrame_retxFrame (s : State) :
    processFrame retxFrame s = { s with st := { s.st with retxCount := 0 }, txLog := s.txLog ++ [s.st.lastSent] } :=
  processFrame_of_exec (by rw [decodeFrame_retxFrame, exec_frameRetx])

theorem processFrame_ackFrame (s : State) : processFrame ackFrame s = { s with st := { s.st with retxCount := 0 } } :=
  processFrame_of_exec (by rw [decodeFrame_ackFrame, exec_frameAck])

/-- A corrupted frame below the retry limit: RETX_FRAME is sent, and the count is all else that may change. -/
theorem processFrame_of_crcFailed (h : classify b = .crcFailed) (hroom : s.params.retxLimit ≠ some s.st.retxCount) :
    ∃ n, processFrame b s = { s with st := { s.st with lastSent := retxFrame, retxCount := n }, txLog := s.txLog ++ [retxFrame] } := by
  rw [processFrame_of_exec (by rw [decodeFrame_of_crcFailed h, exec_frameCrcFailed])]
  rcases onCrcFailed_cases s with ⟨-, e⟩ | ⟨_, -, -, e⟩ | ⟨hfull, -⟩
  · exact ⟨_, e⟩
  · exact ⟨_, e⟩
  · exact absurd hfull hroom

/-- A data frame with room in the queue. -/
theorem processFrame_of_data (h : decodeFrame b = .frameData (decodeWire b)) (hroom : s.params.pendingDepth ≠ some s.st.pending.length) :
    processFrame b s =
      { s with st := { s.st with pending := s.st.pending ++ [decodeWire b], lastSent := ackFrame, retxCount := 0 },
               txLog := s.txLog ++ [ackFrame] } := by
  refine processFrame_of_exec ?_
  rw [h, exec_frameData, accept_of_room (s := s.setRetxCount 0) hroom]
  rfl

/-! ### An end that can take a frame -/

/-- An end at a frame boundary, unfaulted, whose transport-inbound agent has nothing outstanding. -/
structure State.Ready (s : State) : Prop where
  params : s.params.inDomain = true
  fault : s.st.fault = .none
  acc : s.st.acc = []
  transport : ∀ r ∈ s.requests, r.agent ≠ .transport

theorem State.Quiet.no_requests (h : s.Quiet) (a : Agent) : ∀ r ∈ s.requests, r.agent ≠ a := by simp [h.requests]

theorem State.Quiet.ready (h : s.Quiet) : s.Ready := ⟨h.params, h.fault, h.acc, h.no_requests .transport⟩

/-- RX_CHUNK's response where the feed led to `t`. -/
def rxResponse (t : State) : Response := ⟨if t.st.fault = .none then .ok else .blockFaulted, .none⟩

/-- The end after the frame `b` was delivered to it. -/
def State.received (b : Wire) (s : State) : State :=
  { processFrame b s with
    response := some (rxResponse (processFrame b s))
    responses := s.responses ++ [(.transport, rxResponse (processFrame b s))] }

/-- The end after its agent `a` sent the frame `w`. -/
def State.sent (a : Agent) (w : Wire) (s : State) : State :=
  { send w s with response := some ⟨.ok, .none⟩, responses := s.responses ++ [(a, ⟨.ok, .none⟩)] }

@[simp] theorem State.received_st (b : Wire) (s : State) : (s.received b).st = (processFrame b s).st := rfl
@[simp] theorem State.received_txLog (b : Wire) (s : State) : (s.received b).txLog = (processFrame b s).txLog := rfl
@[simp] theorem State.received_params (b : Wire) (s : State) : (s.received b).params = s.params := processFrame_params b s
@[simp] theorem State.received_requests (b : Wire) (s : State) : (s.received b).requests = s.requests := processFrame_requests b s
@[simp] theorem State.received_schedule (b : Wire) (s : State) : (s.received b).schedule = s.schedule := processFrame_schedule b s
@[simp] theorem State.received_responses (b : Wire) (s : State) :
    (s.received b).responses = s.responses ++ [(.transport, rxResponse (processFrame b s))] := rfl

section
variable (hf : (processFrame b s).st.fault = .none)
include hf

/-- An end stays ready as long as the frame leaves no fault. -/
theorem State.Ready.received (h : s.Ready) : (s.received b).Ready where
  params := by rw [State.received_params]; exact h.params
  fault := hf
  acc := (processFrame_acc b s).trans h.acc
  transport := by rw [State.received_requests]; exact h.transport

/-- So does a quiet one. -/
theorem State.Quiet.received (h : s.Quiet) : (s.received b).Quiet where
  params := by rw [State.received_params]; exact h.params
  fault := hf
  acc := (processFrame_acc b s).trans h.acc
  requests := by rw [State.received_requests]; exact h.requests
  schedule := by rw [State.received_schedule]; exact h.schedule

end

/-- A command issued by an agent with nothing outstanding, and its turn: the command is taken, the others stay. -/
theorem step_issue_giveTurn {c : Command} (hfree : ∀ r ∈ s.requests, r.agent ≠ a)
    (he : exec (decodeCommand c) { s with requests := s.requests ++ [⟨a, c⟩] } = .next t) :
    step ((s.issue a c).giveTurn (.agent a)) = .next (settle a s.requests t) := by
  have hw : s.waiting a = false := Bool.eq_false_iff.mpr fun h => by
    obtain ⟨r, hr, hagent, -⟩ := (State.waiting_iff s a).mp h
    exact hfree r hr hagent
  have hr : takeRequest a (s.requests ++ [⟨a, c⟩]) = some (c, s.requests) := by
    rw [takeRequest_append hfree, List.append_nil]
  rw [State.issue_of_not_waiting s c hw]
  exact step_giveTurn (s := { s with requests := s.requests ++ [⟨a, c⟩] }) hr he

/-- RX_CHUNK of a whole frame at a frame boundary. -/
theorem exec_rxChunk_of_boundary (hf : s.st.fault = .none) (hp : s.params.inDomain = true) (hacc : s.st.acc = []) (length : Byte) :
    exec (.rxChunk length b.list) s = .next { processFrame b s with response := some (rxResponse (processFrame b s)) } := by
  rw [exec_rxChunk_eq_feed (wire_ne_nil b) hf, feed_of_boundary hf hp hacc]
  rfl

theorem step_deliver (h : s.Ready) (b : Wire) :
    step ((s.issue .transport ⟨opRxChunk, 0#8, b.list⟩).giveTurn (.agent .transport)) = .next (s.received b) := by
  have hc : decodeCommand ⟨opRxChunk, 0#8, b.list⟩ = .rxChunk 0#8 b.list :=
    Laws.RoundTrip.rxChunk 0#8 b.list (by simp [Instr.wellFormed, wire_ne_nil])
  have he := exec_rxChunk_of_boundary (b := b)
    (s := { s with requests := s.requests ++ [⟨.transport, ⟨opRxChunk, 0#8, b.list⟩⟩] }) h.fault h.params h.acc 0#8
  rw [← hc] at he
  rw [step_issue_giveTurn h.transport he, settle_of_response rfl, processFrame_with_requests]
  simp only [State.received, processFrame_responses, ← processFrame_requests b s]
  rfl

theorem step_send {length : Byte} {p : List Byte} (h : s.Quiet) (a : Agent) (hw : encodeFrame length p = some w) :
    step ((s.issue a ⟨opSendPayload, length, p⟩).giveTurn (.agent a)) = .next (s.sent a w) := by
  have hc : decodeCommand ⟨opSendPayload, length, p⟩ = .sendPayload length p := Laws.RoundTrip.sendPayload length p rfl
  have he := exec_sendPayload_of_encode (s := { s with requests := s.requests ++ [⟨a, ⟨opSendPayload, length, p⟩⟩] }) h.fault hw
  rw [← hc] at he
  exact step_issue_giveTurn (h.no_requests a) he

/-! ### The events of a link, between ready ends -/

theorem run_cons {ev : LinkEvent} {evs : List LinkEvent} (h : l.step ev = .next l') : l.run (ev :: evs) = l'.run evs := by
  rw [Link.run, h]

theorem deliver_of_ready (h : (l.block e).Ready) (b : Wire) :
    l.deliver e b.list = .next (l.setBlock e ((l.block e).received b)) := by
  have hne : b.list.isEmpty = false := by simp [wire_ne_nil]
  rw [Link.deliver, hne, if_neg Bool.false_ne_true, Link.turn, Link.issue, Link.block_setBlock, advance_of_step (step_deliver h b),
    Link.setBlock_setBlock]

theorem receptive_of_ready (h : (l.block e).Ready) : l.receptive e = true := by
  have hw : (l.block e).waiting .transport = false := Bool.eq_false_iff.mpr fun hw => by
    obtain ⟨r, hr, hagent, -⟩ := (State.waiting_iff _ _).mp hw
    exact h.transport r hr hagent
  rw [Link.receptive, hw]
  rfl

/-- The next write of an end reaches its ready peer. -/
theorem step_wire {rest : List Wire} (hw : l.onWire e = w :: rest) (h : (l.block e.peer).Ready) :
    l.step (.wire e) = .next ((l.takeWrites 1 e).setBlock e.peer ((l.block e.peer).received w)) := by
  have hready : ((l.takeWrites 1 e).block e.peer).Ready := by rwa [Link.block_takeWrites]
  simp only [Link.step, hw, receptive_of_ready h, if_true]
  rw [deliver_of_ready hready, Link.block_takeWrites]

/-- Another frame reaches the ready peer in the place of the next write. -/
theorem step_replace {rest : List Wire} (hw : l.onWire e = w :: rest) (h : (l.block e.peer).Ready) (b : Wire) :
    l.step (.noise e 1 b.list) = .next ((l.takeWrites 1 e).setBlock e.peer ((l.block e.peer).received b)) := by
  have hready : ((l.takeWrites 1 e).block e.peer).Ready := by rwa [Link.block_takeWrites]
  have hone : min 1 (l.onWire e).length = 1 := by rw [hw, List.length_cons]; omega
  simp only [Link.step, receptive_of_ready h, Bool.or_true, if_true, hone]
  rw [deliver_of_ready hready, Link.block_takeWrites]

theorem step_run_send {length : Byte} {p : List Byte} (h : (l.block e).Quiet) (a : Agent) (hw : encodeFrame length p = some w) :
    l.step (.run e a ⟨opSendPayload, length, p⟩) = .next (l.setBlock e ((l.block e).sent a w)) := by
  show (l.issue e a _).turn e a = _
  rw [Link.turn, Link.issue, Link.block_setBlock, advance_of_step (step_send h a hw), Link.setBlock_setBlock]

/-! ### What is on the wire -/

theorem onWire_setBlock_a (l : Link) (s : State) : (l.setBlock .a s).onWire .a = s.txLog.drop l.takenA := rfl

/-- The oldest write taken off, others written behind. -/
theorem drop_succ_append {ws rest : List Wire} {n : Nat} (h : ws.drop n = w :: rest) (more : List Wire) :
    (ws ++ more).drop (n + 1) = rest ++ more := by
  have hlen := congrArg List.length h
  rw [List.length_drop, List.length_cons] at hlen
  rw [List.drop_append_of_le_length (by omega), ← List.tail_drop, h, List.tail_cons]

end Sys2Proof.Machine
end

section
/-! PROOFS. The protocol runs over a link: the RETX livelock, the recovery of a corrupted frame, payloads that spell a control frame, and a held
consumer's frame (00_scope.md R1, 70_reset_and_hazards.md R176, R178, 44_payload_queue.md R141). -/

namespace Sys2Proof.Machine

variable {l : Link} {a : Agent} {w : Wire} {s : State}

/-! ### What a delivered RETX_FRAME makes of an end -/

theorem received_retxFrame_st (s : State) : (s.received retxFrame).st = { s.st with retxCount := 0 } := by
  rw [State.received_st, processFrame_retxFrame]

theorem received_retxFrame_txLog (s : State) : (s.received retxFrame).txLog = s.txLog ++ [s.st.lastSent] := by
  rw [State.received_txLog, processFrame_retxFrame]

theorem State.Quiet.received_retxFrame (h : s.Quiet) : (s.received retxFrame).Quiet :=
  h.received (by rw [processFrame_retxFrame]; exact h.fault)

/-! ### The livelock -/

/-- A's next write reaches B, and B's next write reaches A. -/
theorem run_exchange {v : Wire} {rest rest' : List Wire} (hw : l.onWire .a = w :: rest) (hB : l.b.Ready)
    (hv : (l.b.received w).txLog.drop l.takenB = v :: rest') (hA : l.a.Ready) (evs : List LinkEvent) :
    l.run (.wire .a :: .wire .b :: evs) =
      Link.run { a := l.a.received v, b := l.b.received w, takenA := l.takenA + 1, takenB := l.takenB + 1 } evs := by
  have hback : ((l.takeWrites 1 .a).setBlock .b (l.b.received w)).onWire .b = v :: rest' := hv
  exact (run_cons (step_wire (e := .a) hw hB)).trans (run_cons (step_wire (e := .b) hback hA))

/-- The link one lossless round after the livelock `l`. -/
def Link.afterRound (l : Link) : Link :=
  { a := l.a.received retxFrame, b := l.b.received retxFrame, takenA := l.takenA + 1, takenB := l.takenB + 1 }

theorem Link.afterRound_a (l : Link) : l.afterRound.a = l.a.received retxFrame := rfl
theorem Link.afterRound_b (l : Link) : l.afterRound.b = l.b.received retxFrame := rfl

theorem run_round (h : l.PingPong) (evs : List LinkEvent) : l.run (.wire .a :: .wire .b :: evs) = l.afterRound.run evs := by
  have hback : (l.b.received retxFrame).txLog.drop l.takenB = [retxFrame] := by
    rw [received_retxFrame_txLog, h.lastB, h.wireB, List.drop_left]
  exact run_exchange h.wireA h.quietB.ready hback h.quietA.ready evs

theorem Link.PingPong.afterRound (h : l.PingPong) : l.afterRound.PingPong where
  quietA := h.quietA.received_retxFrame
  quietB := h.quietB.received_retxFrame
  lastA := by rw [Link.afterRound_a, received_retxFrame_st]; exact h.lastA
  lastB := by rw [Link.afterRound_b, received_retxFrame_st]; exact h.lastB
  wireA := by
    show l.afterRound.a.txLog.drop (l.takenA + 1) = _
    rw [Link.afterRound_a, received_retxFrame_txLog, h.lastA]
    exact drop_succ_append h.wireA [retxFrame]
  wireB := by
    show l.takenB + 1 = l.afterRound.b.txLog.length
    rw [Link.afterRound_b, received_retxFrame_txLog, List.length_append, h.wireB, List.length_singleton]

/-- Settles O50: a round leads from the livelock to the livelock, each end having replayed the other's RETX_FRAME. -/
theorem retxPingPongNeverEnds : Obligations.RetxPingPongNeverEnds := by
  intro l n h
  induction n generalizing l with
  | zero => exact ⟨l, rfl, h, (List.append_nil _).symm, (List.append_nil _).symm, rfl, rfl⟩
  | succ n ih =>
    obtain ⟨l', hrun, hl', htxA, htxB, hpA, hpB⟩ := ih l.afterRound h.afterRound
    refine ⟨l', (run_round h (rounds n)).trans hrun, hl', ?_, ?_, ?_, ?_⟩
    · rw [htxA, Link.afterRound_a, received_retxFrame_txLog, h.lastA, List.append_assoc, List.singleton_append, ← List.replicate_succ]
    · rw [htxB, Link.afterRound_b, received_retxFrame_txLog, h.lastB, List.append_assoc, List.singleton_append, ← List.replicate_succ]
    · rw [hpA, Link.afterRound_a, received_retxFrame_st]
    · rw [hpB, Link.afterRound_b, received_retxFrame_st]

/-! ### A send over an idle link -/

/-- The frame sent is all there is on the wire. -/
theorem Link.Idle.onWire_sent (h : l.Idle) (a : Agent) (w : Wire) : (l.setBlock .a (l.a.sent a w)).onWire .a = [w] := by
  rw [onWire_setBlock_a, h.wireA]
  exact List.drop_left

/-- A's payload sent and delivered. -/
theorem run_send_wire {length : Byte} {p : List Byte} (h : l.Idle) (a : Agent) (hw : encodeFrame length p = some w) :
    l.run [.run .a a ⟨opSendPayload, length, p⟩, .wire .a] =
      .next { l with a := l.a.sent a w, b := l.b.received w, takenA := l.takenA + 1 } :=
  (run_cons (step_run_send (e := .a) h.quietA a hw)).trans
    (run_cons (evs := []) (step_wire (e := .a) (h.onWire_sent a w) h.quietB.ready))

/-- Settles O52: the frame on the wire is the control frame itself, which B processes as one. -/
theorem payloadSpellingAControlFrameIsLost : Obligations.PayloadSpellingAControlFrameIsLost := by
  refine fun l k p h => ⟨fun hw => ⟨_, run_send_wire h (.consumer k) hw, ?_, ?_⟩, fun hw => ⟨_, run_send_wire h (.consumer k) hw, ?_, ?_⟩⟩
  · show (l.b.received ackFrame).st.pending = _
    rw [State.received_st, processFrame_ackFrame]
  · show (l.b.received ackFrame).txLog = _
    rw [State.received_txLog, processFrame_ackFrame]
  · show (l.b.received retxFrame).st.pending = _
    rw [received_retxFrame_st]
  · exact received_retxFrame_txLog l.b

/-! ### The recovery of a corrupted frame -/

/-- A frame that is no control frame and has a valid crc is data. -/
theorem classify_encoded {length : Byte} {p : List Byte} (hw : encodeFrame length p = some w) (ha : w ≠ ackFrame) (hr : w ≠ retxFrame) :
    classify w = .data := by
  have hcrc : checksum (w.list.take 17) = byteAt w 17 := by
    rw [← beq_iff_eq, ← crcOk_decodeWire]
    exact encodeFrame_valid hw
  exact classify_eq_data hcrc hr ha

/-- A sends `w`, the frame `bad` reaches B in its place, B answers with `v`, and A answers that with `x`. -/
theorem run_recovery {length : Byte} {p : List Byte} {bad v x : Wire} (h : l.Idle) (hw : encodeFrame length p = some w)
    (hv : (l.b.received bad).txLog = l.b.txLog ++ [v]) (hA : (l.a.sent a w).Ready)
    (hx : ((l.a.sent a w).received v).txLog = (l.a.sent a w).txLog ++ [x]) (hB : (l.b.received bad).Ready) :
    l.run [.run .a a ⟨opSendPayload, length, p⟩, .noise .a 1 bad.list, .wire .b, .wire .a] =
      .next { a := (l.a.sent a w).received v, b := (l.b.received bad).received x, takenA := l.takenA + 2, takenB := l.takenB + 1 } := by
  have hsent := h.onWire_sent a w
  have hback : Link.onWire { a := l.a.sent a w, b := l.b.received bad, takenA := l.takenA + 1, takenB := l.takenB } .b = [v] := by
    show (l.b.received bad).txLog.drop l.takenB = [v]
    rw [hv, h.wireB, List.drop_left]
  have hagain : Link.onWire { a := (l.a.sent a w).received v, b := l.b.received bad, takenA := l.takenA + 1, takenB := l.takenB + 1 } .a =
      [x] := by
    show ((l.a.sent a w).received v).txLog.drop (l.takenA + 1) = [x]
    rw [hx]
    exact drop_succ_append hsent [x]
  exact (run_cons (step_run_send (e := .a) h.quietA a hw)).trans <|
    (run_cons (step_replace (e := .a) hsent h.quietB.ready bad)).trans <|
    (run_cons (step_wire (e := .b) hback hA)).trans <|
    run_cons (evs := []) (step_wire (e := .a) hagain hB)

/-- Settles O51: the corrupted frame fails its crc at B, which sends RETX_FRAME; A replays the frame, and B, unfaulted and with room in its
queue as before, accepts it. -/
theorem corruptedFrameIsRecovered : Obligations.CorruptedFrameIsRecovered := by
  intro l k length p w i e h hw ha hr he hlimit hdepth
  have hbad : classify (withError w i e) = .crcFailed := classify_withError (encodeFrame_valid hw) he
  have hdata : decodeFrame w = .frameData (decodeWire w) := decodeFrame_of_data (classify_encoded hw ha hr)
  obtain ⟨n, hasked⟩ := processFrame_of_crcFailed hbad hlimit
  have hstB : (l.b.received (withError w i e)).st = { l.b.st with lastSent := retxFrame, retxCount := n } := by
    rw [State.received_st, hasked]
  have htxB : (l.b.received (withError w i e)).txLog = l.b.txLog ++ [retxFrame] := by rw [State.received_txLog, hasked]
  have hroom : (l.b.received (withError w i e)).params.pendingDepth ≠ some (l.b.received (withError w i e)).st.pending.length := by
    rw [State.received_params, hstB]
    exact hdepth
  have haccepted := processFrame_of_data hdata hroom
  have hrun := run_recovery (a := .consumer k) h hw htxB { h.quietA.ready with } (received_retxFrame_txLog _)
    (h.quietB.ready.received (by rw [hasked]; exact h.quietB.fault))
  refine ⟨_, hrun, ?_, ?_, ?_, ?_⟩
  · show ((l.b.received (withError w i e)).received w).st.pending = _
    rw [State.received_st, haccepted, hstB]
  · show ((l.a.sent (.consumer k) w).received retxFrame).st.pending = _
    rw [received_retxFrame_st]
    rfl
  · show ((l.a.sent (.consumer k) w).received retxFrame).txLog = _
    rw [received_retxFrame_txLog]
    exact List.append_assoc _ [w] [w]
  · show ((l.b.received (withError w i e)).received w).txLog = _
    rw [State.received_txLog, haccepted, htxB]
    exact List.append_assoc _ [retxFrame] [ackFrame]

/-! ### A held consumer -/

/-- PENDING_DEPTH in its domain has room for a first frame (R10). -/
theorem depth_ne_zero (hp : s.params.inDomain = true) : s.params.pendingDepth ≠ some 0 := by
  intro h
  simp [Params.inDomain, h] at hp

/-- Settles O57: B accepts the data frame at its frame boundary, its outstanding commands untouched; the consumer's turn then pops it. -/
theorem heldConsumerReceivesOverTheLink : Obligations.HeldConsumerReceivesOverTheLink := by
  intro l k c others w rest hr hop htransport hp hacc hf hparams hwire hdata
  have hroom : l.b.params.pendingDepth ≠ some l.b.st.pending.length := by rw [hp]; exact depth_ne_zero hparams
  have haccepted := processFrame_of_data hdata hroom
  have hpending : (l.b.received w).st.pending = [decodeWire w] := by rw [State.received_st, haccepted, hp]; rfl
  have hresponse : rxResponse (processFrame w l.b) = ⟨.ok, .none⟩ := by rw [rxResponse, haccepted, if_pos hf]
  have hr' : takeRequest (.consumer k) (l.b.received w).requests = some (c, others) := by rw [State.received_requests]; exact hr
  have hdelivery := step_wire (e := .a) hwire (⟨hparams, hf, hacc, htransport⟩ : l.b.Ready)
  have hturn := heldReceiveCompletesOnItsTurn ((l.takeWrites 1 .a).setBlock .b (l.b.received w)) .b (.consumer k) c others _ _ hr' hop hpending
  refine ⟨_, (run_cons hdelivery).trans (run_cons (evs := []) hturn), rfl, rfl, ?_, ?_, ?_, rfl⟩
  · show (l.b.received w).responses ++ _ = _
    rw [State.received_responses, hresponse]
    exact List.append_assoc _ _ _
  · show (l.b.received w).txLog = _
    rw [State.received_txLog, haccepted]
  · show l.a.txLog.drop (l.takenA + 1) = rest
    have hnext := drop_succ_append hwire []
    rwa [List.append_nil, List.append_nil] at hnext

end Sys2Proof.Machine
end
